-- ==== Sys2Proof/Word.lean ====
section
/-! DEFINITION. The words of the unit and the four operand widths (00_scope.md R8, R10; 30_encoding.md R83). -/

namespace Sys2Proof

/-- A register of the unit: 64 bits (R8, R20). -/
abbrev Word := BitVec 64

/-- A bus byte lane (R53). -/
abbrev Byte := BitVec 8

/-- The four operand widths a command can select (R8, R83). -/
inductive Width where
  | w8
  | w16
  | w32
  | w64
  deriving DecidableEq, Repr

/-- The width W in bits (R83: 8, 16, 32 or 64). -/
def Width.bits : Width → Nat
  | .w8 => 8
  | .w16 => 16
  | .w32 => 32
  | .w64 => 64

end Sys2Proof
end

