-- ==== Sys2Proof/Syntax.lean ====
section
/-! DEFINITION. The commands of the unit, one constructor per row of spec/opcode_table.json
(30_encoding.md R88, R91). A command has no register or immediate operand: its operands are the latched OPA and OPB
(R86), so its only field is the width. -/

namespace Sys2Proof

/-- The legal commands (R91). The signedness is part of the row: `abs` and `lenS` have SGN = 1, the others 0. -/
inductive Instr where
  /-- `abs.sW`, OP 0x01 (R110). -/
  | abs (w : Width)
  /-- `pow.uW`, OP 0x02 (R120). -/
  | pow (w : Width)
  /-- `powx.u64`, OP 0x03 (R125). -/
  | powx
  /-- `binom.u64`, OP 0x04 (R141). -/
  | binom
  /-- `flog2.uW`, OP 0x05 (R161). -/
  | flog2 (w : Width)
  /-- `clog2.uW`, OP 0x06 (R163). -/
  | clog2 (w : Width)
  /-- `flog10.uW`, OP 0x07 (R167). -/
  | flog10 (w : Width)
  /-- `clog10.uW`, OP 0x08 (R169). -/
  | clog10 (w : Width)
  /-- `len.uW`, OP 0x09 with SGN = 0 (R165). -/
  | lenU (w : Width)
  /-- `len.sW`, OP 0x09 with SGN = 1 (R165). -/
  | lenS (w : Width)
  /-- `sqrt.uW`, OP 0x0A (R201). -/
  | sqrt (w : Width)
  /-- `sqrtx.uW`, OP 0x0B (R205), present when HAS_SQRTX = 1. -/
  | sqrtx (w : Width)
  deriving DecidableEq, Repr

end Sys2Proof
end

