-- ==== Sys2Proof/Decode.lean ====
section
/-! DEFINITION. The command word (30_encoding.md R80 to R92): its fields, the decoder, total on 64-bit words, the
legality condition of R89 written on its own, and the encoder. -/

namespace Sys2Proof

/-- OP, bits 7:0 (R81, R82). -/
def fieldOp (c : Word) : BitVec 8 := c.extractLsb' 0 8

/-- WID, bits 9:8 (R81, R83). -/
def fieldWid (c : Word) : BitVec 2 := c.extractLsb' 8 2

/-- SGN, bit 10 (R81, R84). -/
def fieldSgn (c : Word) : Bool := c.getLsbD 10

/-- RSV, bits 63:11 (R81, R85). -/
def fieldRsv (c : Word) : BitVec 53 := c.extractLsb' 11 53

/-- The width a WID code selects: W = 8 * 2^WID (R83). -/
def widthOfCode (k : BitVec 2) : Width :=
  match k.toNat with
  | 0 => .w8
  | 1 => .w16
  | 2 => .w32
  | _ => .w64

/-- The WID code of a width (R81, R83). -/
def codeOfWidth : Width → Nat
  | .w8 => 0
  | .w16 => 1
  | .w32 => 2
  | .w64 => 3

/-- The legality condition of R89 on a command word, for a unit with HAS_SQRTX as given. -/
def legal (hasSqrtx : Bool) (c : Word) : Bool :=
  decide (fieldRsv c = 0) &&
    (match (fieldOp c).toNat with
    | 0x01 => fieldSgn c
    | 0x02 => !fieldSgn c
    | 0x03 => !fieldSgn c && decide ((fieldWid c).toNat = 3)
    | 0x04 => !fieldSgn c && decide ((fieldWid c).toNat = 3)
    | 0x05 => !fieldSgn c
    | 0x06 => !fieldSgn c
    | 0x07 => !fieldSgn c
    | 0x08 => !fieldSgn c
    | 0x09 => true
    | 0x0A => !fieldSgn c
    | 0x0B => !fieldSgn c && hasSqrtx
    | _ => false)

/-- The instruction a command word encodes, by the opcode map of R88 under the constraints of R89; `none` for the words
that are illegal in every unit (R90). Whether the optional SQRTX is present is no matter of the encoding: its meaning
checks HAS_SQRTX (notes/assumptions/2.md). -/
def decode (c : Word) : Option Instr :=
  if fieldRsv c = 0 then
    let w := widthOfCode (fieldWid c)
    match (fieldOp c).toNat, fieldSgn c with
    | 0x01, true => some (.abs w)
    | 0x02, false => some (.pow w)
    | 0x03, false => if w = .w64 then some .powx else none
    | 0x04, false => if w = .w64 then some .binom else none
    | 0x05, false => some (.flog2 w)
    | 0x06, false => some (.clog2 w)
    | 0x07, false => some (.flog10 w)
    | 0x08, false => some (.clog10 w)
    | 0x09, false => some (.lenU w)
    | 0x09, true => some (.lenS w)
    | 0x0A, false => some (.sqrt w)
    | 0x0B, false => some (.sqrtx w)
    | _, _ => none
  else none

/-- A command word from its fields, RSV = 0 (R81). -/
def packWord (op : Nat) (sgn : Bool) (w : Width) : Word :=
  BitVec.ofNat 64 (op + codeOfWidth w * 2 ^ 8 + sgn.toNat * 2 ^ 10)

/-- The command word of an instruction (R88, R91). -/
def encode : Instr → Word
  | .abs w => packWord 0x01 true w
  | .pow w => packWord 0x02 false w
  | .powx => packWord 0x03 false .w64
  | .binom => packWord 0x04 false .w64
  | .flog2 w => packWord 0x05 false w
  | .clog2 w => packWord 0x06 false w
  | .flog10 w => packWord 0x07 false w
  | .clog10 w => packWord 0x08 false w
  | .lenU w => packWord 0x09 false w
  | .lenS w => packWord 0x09 true w
  | .sqrt w => packWord 0x0A false w
  | .sqrtx w => packWord 0x0B false w

/-- The command word whose low `nbits` bits are `w` and whose other bits are 0. -/
def tableWord (nbits w : Nat) : Word := BitVec.ofNat 64 (w % 2 ^ nbits)

/-- The instruction the decoder reads from a word as spec/opcode_table.json numbers its bits. A command is one 64-bit
word (R80): a longer one is none. -/
def decodeTableWord (nbits w : Nat) : Option Instr :=
  if nbits ≤ 64 then decode (tableWord nbits w) else none

end Sys2Proof
end

