-- ==== Sys2Proof/Config.lean ====
section
/-! DEFINITION. What the spec leaves open as a parameter (00_scope.md R9): the four plain parameters, which every
state carries as data, and the free value LOGZERO, which has no body. LAT has no counterpart: the model has no time
(70_reset_and_hazards.md R262), and every latency is one interleaving of the agents' turns (notes/assumptions/6.md). -/

namespace Sys2Proof

/-- The four logarithm commands whose result for operand 0 the source leaves unspecified (43_log.md R172). -/
inductive LogOp where
  | flog2
  | clog2
  | flog10
  | clog10
  deriving DecidableEq, Repr

/-- `LOGZERO(op, W)` (R9, R172): the result of a logarithm command whose operand is 0, a fixed W-bit value with no
other property. FREE VALUE: it has no body, so no proof can see it (notes/assumptions/1.md). -/
opaque Config.logZero (op : LogOp) (w : Width) : BitVec w.bits

/-- `NATIVE_WIDTH` (R9): 32 or 64 bits. Only the assembler reads it. -/
inductive NativeWidth where
  | n32
  | n64
  deriving DecidableEq, Repr

/-- The operand width that `.un` and `.sn` stand for (30_encoding.md R97). -/
def NativeWidth.toWidth : NativeWidth → Width
  | .n32 => .w32
  | .n64 => .w64

/-- The parameters of R9 that are plain data. No step changes them (notes/assumptions/2.md). -/
structure Params where
  /-- Which 0x40-byte block of the host's address space the unit stands in: `UNIT_BASE` is a multiple of 0x40. -/
  block : Nat
  /-- `HAS_SQRTX`: whether opcode 0x0B is SQRTX (R205) or illegal. -/
  hasSqrtx : Bool
  /-- `NATIVE_WIDTH`. -/
  native : NativeWidth
  deriving DecidableEq, Repr

/-- `UNIT_BASE` (R9, R50): a multiple of 0x40 by its form. -/
def Params.unitBase (p : Params) : Nat := 0x40 * p.block

/-- The defaults R9 gives for a simulator: UNIT_BASE = 0, HAS_SQRTX = 1, NATIVE_WIDTH = 64. -/
def Params.simulator : Params := { block := 0, hasSqrtx := true, native := .n64 }

end Sys2Proof
end

