-- ==== Sys2Proof/Machine/Rom.lean ====
section
/-! DEFINITION. The contents of the two read-only tables, as 10_state.md R35 and R36 print them. -/

namespace Sys2Proof.Machine

/-- One entry of D10TAB: a 5-bit digit count and a 64-bit threshold (R20, R36). -/
structure DigitRow where
  digits : BitVec 5
  threshold : Word
  deriving DecidableEq, Repr

/-- The entries of DBTAB as printed in R35, index 0 to 63, eight a line. -/
def dbtabEntries : List (BitVec 6) :=
  [63, 0, 58, 1, 59, 47, 53, 2] ++
  [60, 39, 48, 27, 54, 33, 42, 3] ++
  [61, 51, 37, 40, 49, 18, 28, 20] ++
  [55, 30, 34, 11, 43, 14, 22, 4] ++
  [62, 57, 46, 52, 38, 26, 32, 41] ++
  [50, 36, 17, 19, 29, 10, 13, 21] ++
  [56, 45, 25, 31, 35, 16, 9, 12] ++
  [44, 24, 15, 8, 23, 7, 6, 5]

/-- DBTAB (R35). -/
def dbtabContents : Vector (BitVec 6) 64 := ⟨dbtabEntries.toArray, rfl⟩

/-- The rows of D10TAB as printed in R36, bit-length 0 to 64: (digits, threshold). -/
def d10tabRows : List DigitRow :=
  [⟨1, 0⟩, ⟨1, 1⟩, ⟨1, 1⟩, ⟨1, 1⟩] ++
  [⟨2, 10⟩, ⟨2, 10⟩, ⟨2, 10⟩, ⟨3, 100⟩, ⟨3, 100⟩, ⟨3, 100⟩] ++
  [⟨4, 1000⟩, ⟨4, 1000⟩, ⟨4, 1000⟩, ⟨4, 1000⟩] ++
  [⟨5, 10000⟩, ⟨5, 10000⟩, ⟨5, 10000⟩, ⟨6, 100000⟩, ⟨6, 100000⟩, ⟨6, 100000⟩] ++
  [⟨7, 1000000⟩, ⟨7, 1000000⟩, ⟨7, 1000000⟩, ⟨7, 1000000⟩] ++
  [⟨8, 10000000⟩, ⟨8, 10000000⟩, ⟨8, 10000000⟩, ⟨9, 100000000⟩, ⟨9, 100000000⟩, ⟨9, 100000000⟩] ++
  [⟨10, 1000000000⟩, ⟨10, 1000000000⟩, ⟨10, 1000000000⟩, ⟨10, 1000000000⟩] ++
  [⟨11, 10000000000⟩, ⟨11, 10000000000⟩, ⟨11, 10000000000⟩] ++
  [⟨12, 100000000000⟩, ⟨12, 100000000000⟩, ⟨12, 100000000000⟩] ++
  [⟨13, 1000000000000⟩, ⟨13, 1000000000000⟩, ⟨13, 1000000000000⟩, ⟨13, 1000000000000⟩] ++
  [⟨14, 10000000000000⟩, ⟨14, 10000000000000⟩, ⟨14, 10000000000000⟩] ++
  [⟨15, 100000000000000⟩, ⟨15, 100000000000000⟩, ⟨15, 100000000000000⟩] ++
  [⟨16, 1000000000000000⟩, ⟨16, 1000000000000000⟩, ⟨16, 1000000000000000⟩, ⟨16, 1000000000000000⟩] ++
  [⟨17, 10000000000000000⟩, ⟨17, 10000000000000000⟩, ⟨17, 10000000000000000⟩] ++
  [⟨18, 100000000000000000⟩, ⟨18, 100000000000000000⟩, ⟨18, 100000000000000000⟩] ++
  [⟨19, 1000000000000000000⟩, ⟨19, 1000000000000000000⟩, ⟨19, 1000000000000000000⟩,
    ⟨19, 1000000000000000000⟩] ++
  [⟨20, 10000000000000000000⟩]

/-- D10TAB (R36). -/
def d10tabContents : Vector DigitRow 65 := ⟨d10tabRows.toArray, rfl⟩

end Sys2Proof.Machine
end

