-- ==== Sys2Proof/Machine/State.lean ====
section
/-! DEFINITION. The state: the unit's own registers and tables (10_state.md R20), the host side (the accesses at the
port, what the host has seen, the host program of 30_encoding.md R94, and the order in which the agents move), and the
parameters of 00_scope.md R9. All of it is plain data. -/

namespace Sys2Proof.Machine

/-- The fields of STATUS (R26). Bits 63:4 are hardwired 0, so nothing holds them. -/
structure Status where
  busy : Bool
  done : Bool
  ovf : Bool
  ill : Bool
  deriving DecidableEq, Repr

/-- The architectural state of the unit, exactly the rows of R20. -/
structure UnitState where
  /-- OPA, the first operand register (R22). -/
  opa : Word
  /-- OPB, the second operand register (R23). -/
  opb : Word
  /-- CMD, the last command word written (R24). -/
  cmd : Word
  /-- RES, the result register (R25). -/
  res : Word
  /-- STATUS (R26 to R30). -/
  status : Status
  /-- CUR_CMD, the latched command word (R31). -/
  curCmd : Word
  /-- CUR_A, the latched OPA (R31). -/
  curA : Word
  /-- CUR_B, the latched OPB (R31). -/
  curB : Word
  /-- DBTAB, the de Bruijn ROM (R35). -/
  dbtab : Vector (BitVec 6) 64
  /-- D10TAB, the base-10 ROM (R36). -/
  d10tab : Vector DigitRow 65
  deriving DecidableEq, Repr

/-- A name that a host program binds, or a label in it (R94). The names of the text are numbered. -/
abbrev Name := Nat

/-- What a host bus access does (R13): `BusRead` or `BusWrite`. -/
inductive AccessKind where
  /-- A read. `dst` is the host name its value is bound to (R94), if a host program made it. -/
  | read (dst : Option Name)
  /-- A write of `v`. -/
  | write (v : Word)
  deriving DecidableEq, Repr

/-- A host bus access: its byte offset from UNIT_BASE and its size in bytes (R13). -/
structure BusAccess where
  kind : AccessKind
  off : Nat
  size : Nat
  deriving DecidableEq, Repr

/-- A performed access, as R94 writes it: `W|R off data`. -/
inductive Transaction where
  | write (off : Nat) (data : Word)
  | read (off : Nat) (data : Word)
  deriving DecidableEq, Repr

/-- The registers a host program can name (R94). -/
inductive HostReg where
  | opa
  | opb
  | cmd
  | res
  | status
  deriving DecidableEq, Repr

/-- The value a host program writes: a constant, or the value bound to a name (R94). -/
inductive HostValue where
  | imm (v : Word)
  | name (n : Name)
  deriving DecidableEq, Repr

/-- A line of a host program (R94). `cmd` and `cmd.raw` are spellings of `wr CMD`, and `call` and `poll` expand to
several lines (R95, R96): Machine/Assembler.lean makes those. -/
inductive HostLine where
  /-- `wr <reg>, <value>`. -/
  | wr (r : HostReg) (v : HostValue)
  /-- `rd <reg> -> <name>`. -/
  | rd (r : HostReg) (dst : Name)
  /-- `label:`. -/
  | label (l : Name)
  /-- `beqz <name>, <label>`. -/
  | beqz (n : Name) (l : Name)
  /-- `bnez <name>, <label>`. -/
  | bnez (n : Name) (l : Name)
  /-- `jmp <label>`. -/
  | jmp (l : Name)
  /-- `andi <name> <- <name>, <imm>`: bitwise AND. -/
  | andi (dst src : Name) (imm : Word)
  /-- `addi <name> <- <name>, <imm>`: addition mod 2^64. -/
  | addi (dst src : Name) (imm : Word)
  /-- `set <name> <- <imm64>`. -/
  | set (dst : Name) (imm : Word)
  deriving DecidableEq, Repr

/-- Whose turn it is (R18, R60): one move of one agent, or of the platform. -/
inductive Event where
  /-- The unit's step, completion (R33). -/
  | unit
  /-- The port performs the access at its head, unless that is held (R60). -/
  | port
  /-- The host runs the next line of its program (R94). -/
  | host
  /-- An access of a host agent reaches the port (R60, R63). -/
  | issue (a : BusAccess)
  /-- The platform resets the unit (R250). -/
  | reset
  deriving DecidableEq, Repr

/-- Why the machine stops: the host agent is in a fault that is never cleared (R222). The unit itself raises none (R220). -/
inductive Fault where
  /-- `BusError(off)`: the host made an access that R52 refuses (wrong size, misaligned or outside the block). Raised by
  the host agent's turns after it. SAFE: the spec itself models it as a fault of the host (R222). -/
  | busError (off : Nat)
  /-- The access at offset `off` was dropped by a reset (R252). Raised by the host agent's turns after it. SAFE: the spec
  treats it as a bus error response to the host. -/
  | droppedByReset (off : Nat)
  deriving DecidableEq, Repr

/-- Why the machine has no meaning for what it should run. -/
inductive Refusal where
  /-- An instruction that has no meaning yet, by its mnemonic. No arm raises it. SAFE: the run stops. -/
  | notModelled (mnemonic : String)
  /-- A host program line reads a name that nothing has bound. Raised by the host's turn. SAFE: the run stops. -/
  | unboundName (n : Name)
  /-- A host program branches to a label it does not have. Raised by the host's turn. SAFE: the run stops. -/
  | noSuchLabel (l : Name)
  deriving DecidableEq, Repr

/-- The host side of the port. None of it is state of the unit (R20): it is the outside world, as plain data. -/
structure HostState where
  /-- The turns of the agents that are laid down, the next first. With none left the agents move by a fixed order
  (Machine/Agents.lean), so a BUSY unit always completes (R264). -/
  script : List Event
  /-- The accesses that have reached the port and are not performed yet, the oldest first (R60). A held access stands at
  the head (R257, R258). -/
  port : List BusAccess
  /-- The performed accesses, the latest first (R94). -/
  trace : List Transaction
  /-- The host agent's fault, never cleared (R222, R252). -/
  fault : Option Fault
  /-- The text of the host program (R94). -/
  program : List HostLine
  /-- The index of the host program's next line. -/
  pc : Nat
  /-- The values bound to host names (R94), by rising name. -/
  names : List (Name × Word)
  deriving DecidableEq, Repr

/-- The whole state: the unit, the host side and the parameters. -/
structure State where
  unit : UnitState
  host : HostState
  params : Params
  deriving DecidableEq, Repr

/-- The unit after reset (R38, R250): every register 0, the tables holding R35 and R36. The latch is unspecified and
unobservable; 0 is the model's choice (notes/assumptions/3.md). -/
def UnitState.reset : UnitState where
  opa := 0
  opb := 0
  cmd := 0
  res := 0
  status := { busy := false, done := false, ovf := false, ill := false }
  curCmd := 0
  curA := 0
  curB := 0
  dbtab := dbtabContents
  d10tab := d10tabContents

/-- A host side with nothing under way, no program and nothing laid down. -/
def HostState.idle : HostState where
  script := []
  port := []
  trace := []
  fault := none
  program := []
  pc := 0
  names := []

/-- The machine right after reset (R38), under the parameters R9 gives as a simulator's defaults. -/
def State.reset : State where
  unit := UnitState.reset
  host := HostState.idle
  params := Params.simulator

end Sys2Proof.Machine
end

