-- ==== Sys2Proof/Machine/Flags.lean ====
section
/-! DEFINITION. STATUS: what each step leaves in it (10_state.md R26 to R30, R32, R33) and the word a host reads. -/

namespace Sys2Proof.Machine

/-- STATUS after a CMD write: BUSY set, the others cleared (R32). -/
def Status.issued : Status := { busy := true, done := false, ovf := false, ill := false }

/-- STATUS after a completion: DONE set, BUSY cleared, OVF and ILL as the command gives them (R33). -/
def Status.completed (ovf ill : Bool) : Status := { busy := false, done := true, ovf := ovf, ill := ill }

/-- STATUS as a host reads it: BUSY, DONE, OVF and ILL in bits 0 to 3, bits 63:4 hardwired 0 (R26). -/
def Status.toWord (st : Status) : Word :=
  BitVec.ofNat 64 (st.busy.toNat + 2 * st.done.toNat + 4 * st.ovf.toNat + 8 * st.ill.toNat)

end Sys2Proof.Machine
end

