-- ==== Sys2Proof/Machine/Operands.lean ====
section
/-! DEFINITION. How a command gets its operands and where its result goes (30_encoding.md R86, R87), and the byte lanes
of a bus word (20_memory.md R53). A command has no other operand form. -/

namespace Sys2Proof.Machine

/-- The low W bits of an operand register; the higher bits are ignored (R86). -/
def lowBits (w : Width) (x : Word) : BitVec w.bits := x.setWidth w.bits

/-- The operand a = CUR_A[W-1:0] (R86). -/
def operandA (w : Width) (s : State) : BitVec w.bits := lowBits w s.unit.curA

/-- The operand b = CUR_B[W-1:0] (R86). -/
def operandB (w : Width) (s : State) : BitVec w.bits := lowBits w s.unit.curB

/-- Result placement: a W-bit result, signed or not, zero-extended to 64 bits (R87). -/
def place {n : Nat} (v : BitVec n) : Word := v.setWidth 64

/-- Byte lane j of a bus word: bits 8j+7 to 8j, little-endian (R53). -/
def byteLane (v : Word) (j : Nat) : Byte := v.extractLsb' (8 * j) 8

/-- The bus word that eight byte lanes carry, lane 0 first (R53). -/
def wordOfLanes : List Byte → Word
  | [] => 0
  | b :: rest => b.setWidth 64 ||| (wordOfLanes rest <<< 8)

/-- The host address of byte lane j of the register at an offset (R50, R53). -/
def laneAddress (p : Params) (off j : Nat) : Nat := p.unitBase + off + j

/-- The access that a host makes at a host address. An address below UNIT_BASE is the platform's, not the unit's (R50, R51). -/
def accessAt (p : Params) (kind : AccessKind) (addr size : Nat) : Option BusAccess :=
  if p.unitBase ≤ addr then some { kind := kind, off := addr - p.unitBase, size := size } else none

end Sys2Proof.Machine
end

