-- ==== Sys2Proof/Machine/Ops.lean ====
section
/-! DEFINITION. The named operations over the registers, the register block and the port: the command-issue step
(10_state.md R32), completion (R33), the report of an illegal word (30_encoding.md R90), bus accesses (20_memory.md R50 to
R58), holds (70_reset_and_hazards.md R257 to R259) and reset (R250 to R252).

The unit takes no exception and returns from none (60_exceptions.md R220, R226), so the operation that stands where
another machine enters a handler is `State.completeIllegal`: the one way an illegal word is reported. -/

namespace Sys2Proof.Machine

/-- One move of the machine. -/
abbrev Move := Host.Outcome State Fault Refusal

/-! ### Commands -/

/-- The command-issue step (R32): CMD and the latch are loaded and STATUS shows BUSY alone. RES is not changed, and
nothing is checked about `v`. -/
def UnitState.issue (u : UnitState) (v : Word) : UnitState :=
  { u with cmd := v, curCmd := v, curA := u.opa, curB := u.opb, status := Status.issued }

/-- Completion (R33): one atomic write of RES and STATUS. -/
def State.complete (s : State) (value : Word) (ovf ill : Bool) : State :=
  { s with unit := { s.unit with res := value, status := Status.completed ovf ill } }

/-- The completion of a legal command with result `v` and overflow output `ovf` (R33, R87, R92). -/
def State.finish {n : Nat} (s : State) (v : BitVec n) (ovf : Bool) : Move :=
  .next (s.complete (place v) ovf false)

/-- The completion of an illegal command: RES = 0, OVF = 0, ILL = 1, DONE = 1 (R90, R92). -/
def State.completeIllegal (s : State) : Move :=
  .next (s.complete 0 false true)

/-! ### The register block -/

/-- The accesses the unit admits: 8 bytes, at a multiple of 8, inside the block (R52). -/
def BusAccess.admitted (a : BusAccess) : Bool :=
  decide (a.size = 8 ∧ a.off % 8 = 0 ∧ a.off < 0x40)

/-- The accesses that are held while BUSY = 1: a CMD write and a RES read (R257, R258). Nothing else is held on its own
account (R259). -/
def BusAccess.held (a : BusAccess) (st : Status) : Bool :=
  st.busy &&
    match a.kind with
    | .write _ => a.off == 0x10
    | .read _ => a.off == 0x18

/-- What a read of the register block returns (R50); a reserved offset reads 0 (R55). -/
def UnitState.readReg (u : UnitState) (off : Nat) : Word :=
  match off with
  | 0x00 => u.opa
  | 0x08 => u.opb
  | 0x10 => u.cmd
  | 0x18 => u.res
  | 0x20 => u.status.toWord
  | _ => 0

/-- What a write to the register block does (R50): a CMD write starts a command (R32), and writes to RES, STATUS and the
reserved offsets have no effect (R54). -/
def UnitState.writeReg (u : UnitState) (off : Nat) (v : Word) : UnitState :=
  match off with
  | 0x00 => { u with opa := v }
  | 0x08 => { u with opb := v }
  | 0x10 => u.issue v
  | _ => u

/-! ### Host names -/

/-- The value bound to a host name (R94). -/
def lookupName : List (Name × Word) → Name → Option Word
  | [], _ => none
  | (m, w) :: rest, n => if m = n then some w else lookupName rest n

/-- Binds a host name (R94). The list stays in rising order of names, one entry a name. -/
def bindName : List (Name × Word) → Name → Word → List (Name × Word)
  | [], n, v => [(n, v)]
  | (m, w) :: rest, n, v =>
    if n < m then (n, v) :: (m, w) :: rest
    else if n = m then (n, v) :: rest
    else (m, w) :: bindName rest n v

/-- The canonical form of the bound names: by rising name, one entry a name. -/
abbrev namesWf (l : List (Name × Word)) : Prop := l.Pairwise (fun x y => x.1 < y.1)

/-! ### The port -/

/-- An access reaches the port: it stands behind those that reached it before (R60). -/
def State.enqueue (s : State) (a : BusAccess) : State :=
  { s with host := { s.host with port := s.host.port ++ [a] } }

/-- The head access leaves the port. -/
def State.dequeue (s : State) : State :=
  { s with host := { s.host with port := s.host.port.tail } }

/-- An admitted access that is not held takes effect (R60). A read changes nothing in the unit (R56); its value is what the
host sees, and is bound to the read's name if it has one (R94). -/
def State.perform (s : State) (a : BusAccess) : State :=
  match a.kind with
  | .read dst =>
    let v := s.unit.readReg a.off
    let names := match dst with
      | some n => bindName s.host.names n v
      | none => s.host.names
    { s with host := { s.host with trace := .read a.off v :: s.host.trace, names := names } }
  | .write v =>
    { s with
      unit := s.unit.writeReg a.off v
      host := { s.host with trace := .write a.off v :: s.host.trace } }

/-- The host agent goes into a fault, unless it is in one already: a fault is never cleared (R222). -/
def State.raise (s : State) (f : Fault) : State :=
  { s with host := { s.host with fault := s.host.fault.or (some f) } }

/-! ### Reset -/

/-- Reset (R250): the registers take the values of R38, the command in flight is abandoned (R251), and the accesses at
the port are dropped, the oldest of them ending with a bus error response to the host (R252, R265). The tables are never
written (R37, R253). -/
def State.resetUnit (s : State) : State :=
  let cleared : State :=
    { s with
      unit := { UnitState.reset with dbtab := s.unit.dbtab, d10tab := s.unit.d10tab }
      host := { s.host with port := [] } }
  match s.host.port with
  | [] => cleared
  | a :: _ => cleared.raise (.droppedByReset a.off)

end Sys2Proof.Machine
end

