-- ==== Sys2Proof/Machine/Abs.lean ====
section
/-! DEFINITION. ABS (40_abs.md R110, R111). -/

namespace Sys2Proof.Machine

/-- The branch-free datapath of R110: `(n + mask) XOR mask` with the sign bit spread over the mask. -/
def absDatapath {n : Nat} (a : BitVec n) : BitVec n :=
  let mask := a.sshiftRight (n - 1)
  (a + mask) ^^^ mask

/-- `abs.sW` (R110). The minimum wraps to itself, with no flag (R111). -/
def execAbs (w : Width) (s : State) : Move :=
  s.finish (absDatapath (operandA w s)) false

end Sys2Proof.Machine
end

