-- ==== Sys2Proof/Machine/Arith.lean ====
section
/-! DEFINITION. The number operations the datapaths share: the double-width primitives (00_scope.md R12), bit-length
(43_log.md R160) and the exact integer square root (44_sqrt.md R205). -/

namespace Sys2Proof.Machine

/-- `mul128(a, b) -> (hi, lo)`: the 128-bit product of two 64-bit values (R12). -/
def mul128 (a b : Word) : Word × Word :=
  (BitVec.ofNat 64 (a.toNat * b.toNat / 2 ^ 64), BitVec.ofNat 64 (a.toNat * b.toNat))

/-- `div128(hi, lo, d) -> (q, r)` (R12). Its precondition is d > 0 and hi < d, and then both parts fit in 64 bits. -/
def div128 (hi lo d : Word) : Word × Word :=
  (BitVec.ofNat 64 ((hi.toNat * 2 ^ 64 + lo.toNat) / d.toNat),
   BitVec.ofNat 64 ((hi.toNat * 2 ^ 64 + lo.toNat) % d.toNat))

/-- `add64c(a, b) -> (s, carry)` (R12). -/
def add64c (a b : Word) : Word × Bool :=
  (a + b, decide (2 ^ 64 ≤ a.toNat + b.toNat))

/-- `BitLen(u)`: the position of the highest set bit plus one, 0 for 0 (R160). -/
def bitLen (u : Nat) : Nat := if u = 0 then 0 else Nat.log2 u + 1

theorem bitLen_le (x : Word) : bitLen x.toNat ≤ 64 := by
  unfold bitLen
  split
  · omega
  · rename_i h
    have : Nat.log2 x.toNat < 64 := (Nat.log2_lt h).2 x.isLt
    omega

/-- One bit at a time, from bit `k - 1` down: `acc` grows while its square stays at most `n`. -/
def floorRootFrom (n : Nat) : Nat → Nat → Nat
  | 0, acc => acc
  | k + 1, acc =>
    floorRootFrom n k (if (acc + 2 ^ k) * (acc + 2 ^ k) ≤ n then acc + 2 ^ k else acc)

/-- The largest u with u * u <= n (R205). R206 leaves the method to the implementation. -/
def floorRoot (n : Nat) : Nat := floorRootFrom n ((bitLen n + 1) / 2) 0

end Sys2Proof.Machine
end

