-- ==== Sys2Proof/Machine/Binom.lean ====
section
/-! DEFINITION. BINOM (42_binomial.md R140 to R143). -/

namespace Sys2Proof.Machine

/-- The loop of R143: `remaining` more steps, with step number `i`, running coefficient `c` and decreasing factor `n'`. -/
def binomLoop : (remaining : Nat) → (i c n' : Word) → Word × Bool
  | 0, _, c, _ => (c, false)
  | remaining + 1, i, c, n' =>
    let qr := div128 0 c i
    let hp := mul128 qr.1 n'
    if hp.1 ≠ 0 then (0, true)
    else
      let hl := mul128 qr.2 n'
      let p2 := (div128 hl.1 hl.2 i).1
      let sum := add64c hp.2 p2
      if sum.2 then (0, true) else binomLoop remaining (i + 1) sum.1 (n' - 1)

/-- The datapath of BINOM: the edge cases in the order of R142, then the loop of R143. It computes the contract of R141. -/
def binomDatapath (n k : Word) : Word × Bool :=
  if n < k then (0, false)
  else if k = 0 ∨ k = n then (1, false)
  else binomLoop (min k.toNat (n.toNat - k.toNat)) 1 1 n

/-- `binom.u64`: n = OPA, k = OPB as latched (R140, R141). -/
def execBinom (s : State) : Move :=
  s.finish (binomDatapath (operandA .w64 s) (operandB .w64 s)).1
    (binomDatapath (operandA .w64 s) (operandB .w64 s)).2

end Sys2Proof.Machine
end

