-- ==== Sys2Proof/Machine/Log.lean ====
section
/-! DEFINITION. The logarithm and length commands (43_log.md R160 to R173). The tables are read from the state. -/

namespace Sys2Proof.Machine

/-- The six OR-with-shifted-self steps of R162. -/
def smear (x : Word) : Word :=
  let v := x ||| (x >>> 1)
  let v := v ||| (v >>> 2)
  let v := v ||| (v >>> 4)
  let v := v ||| (v >>> 8)
  let v := v ||| (v >>> 16)
  v ||| (v >>> 32)

/-- The de Bruijn constant (R8, R162). -/
def deBruijnConstant : Word := 0x07EDD5E59A4E28C2

/-- The index of R162: the top six bits of the low word of the product. -/
def deBruijnIndex (v : Word) : BitVec 6 := (v * deBruijnConstant).extractLsb' 58 6

/-- `DeBruijnLog2(x)` (R162). -/
def deBruijnLog2 (dbtab : Vector (BitVec 6) 64) (x : Word) : BitVec 6 :=
  let v := smear x
  dbtab[(deBruijnIndex (v - (v >>> 1))).toNat]'(deBruijnIndex (v - (v >>> 1))).isLt

/-- The D10TAB row of a value's bit-length (R164). -/
def digitRow (d10tab : Vector DigitRow 65) (u : Word) : DigitRow :=
  d10tab[bitLen u.toNat]'(Nat.lt_succ_of_le (bitLen_le u))

/-- `FLP1(u)`: the digit count, by the strict comparison (R164, R170). -/
def flp1 (d10tab : Vector DigitRow 65) (u : Word) : Int :=
  let row := digitRow d10tab u
  row.digits.toNat - (if u < row.threshold then 1 else 0)

/-- The digits of CLOG10: the comparison is not strict (R169, R170). -/
def clog10Digits (d10tab : Vector DigitRow 65) (u : Word) : Int :=
  let row := digitRow d10tab u
  row.digits.toNat - (if u ≤ row.threshold then 1 else 0)

/-- `flog2.uW` (R161); operand 0 gives LOGZERO (R172). -/
def execFlog2 (w : Width) (s : State) : Move :=
  let a := operandA w s
  s.finish
    (if a = 0 then Config.logZero .flog2 w
      else (deBruijnLog2 s.unit.dbtab (place a)).setWidth w.bits) false

/-- `clog2.uW`: the bit-length of u - 1 (R163); operand 0 gives LOGZERO (R172). -/
def execClog2 (w : Width) (s : State) : Move :=
  let a := operandA w s
  s.finish
    (if a = 0 then Config.logZero .clog2 w else BitVec.ofNat w.bits (bitLen (a.toNat - 1))) false

/-- `flog10.uW`: FLP1(u) - 1 (R167); operand 0 gives LOGZERO (R172). -/
def execFlog10 (w : Width) (s : State) : Move :=
  let a := operandA w s
  s.finish
    (if a = 0 then Config.logZero .flog10 w
      else BitVec.ofInt w.bits (flp1 s.unit.d10tab (place a) - 1)) false

/-- `clog10.uW` (R169); operand 0 gives LOGZERO (R172). -/
def execClog10 (w : Width) (s : State) : Move :=
  let a := operandA w s
  s.finish
    (if a = 0 then Config.logZero .clog10 w
      else BitVec.ofInt w.bits (clog10Digits s.unit.d10tab (place a))) false

/-- `len.uW`: the digit count of the unsigned operand (R165). -/
def execLenU (w : Width) (s : State) : Move :=
  s.finish (BitVec.ofInt w.bits (flp1 s.unit.d10tab (place (operandA w s)))) false

/-- The length of a signed operand, the minus sign counted (R165). The minimum of 64 bits is hard-coded to 20; a narrower
one is made a magnitude without wrap (R171). -/
def signedLen (d10tab : Vector DigitRow 65) (w : Width) (n : Int) : Int :=
  if w = .w64 ∧ n = -2 ^ 63 then 20
  else flp1 d10tab (BitVec.ofNat 64 n.natAbs) + (if n < 0 then 1 else 0)

/-- `len.sW` (R165). -/
def execLenS (w : Width) (s : State) : Move :=
  s.finish (BitVec.ofInt w.bits (signedLen s.unit.d10tab w (operandA w s).toInt)) false

end Sys2Proof.Machine
end

