-- ==== Sys2Proof/Machine/Pow.lean ====
section
/-! DEFINITION. POW and POWX (41_pow.md R120, R125, R126). -/

namespace Sys2Proof.Machine

/-- The loop of R120 modulo `m`, at most `fuel` iterations. -/
def powLoop (m : Nat) : (fuel result base e : Nat) → Nat
  | 0, result, _, _ => result
  | fuel + 1, result, base, e =>
    if e = 0 then result
    else
      powLoop m fuel (if e % 2 = 1 then (result * base) % m else result) ((base * base) % m) (e / 2)

/-- The datapath of POW: base and exponent are unsigned and of one width, so the loop runs at most W times (R120, R263). -/
def powDatapath {n : Nat} (a b : BitVec n) : BitVec n :=
  BitVec.ofNat n (powLoop (2 ^ n) n 1 a.toNat b.toNat)

/-- The checked loop of R126: each product is a double-width multiply whose high word must be zero, and the square after
the last exponent bit is not taken. -/
def powxLoop : (fuel : Nat) → (result base : Word) → (e : Nat) → Word × Bool
  | 0, result, _, _ => (result, false)
  | fuel + 1, result, base, e =>
    if e = 0 then (result, false)
    else
      let product := if e % 2 = 1 then mul128 result base else (0, result)
      if product.1 ≠ 0 then (0, true)
      else if e / 2 = 0 then (product.2, false)
      else
        let square := mul128 base base
        if square.1 ≠ 0 then (0, true) else powxLoop fuel product.2 square.2 (e / 2)

/-- The datapath of POWX, at most 64 iterations (R126). It computes the contract of R125. -/
def powxDatapath (a b : Word) : Word × Bool := powxLoop 64 1 a b.toNat

/-- `pow.uW`: the power modulo 2^W, OVF = 0 always (R120). -/
def execPow (w : Width) (s : State) : Move :=
  s.finish (powDatapath (operandA w s) (operandB w s)) false

/-- `powx.u64`: the power with its overflow flag (R125). -/
def execPowx (s : State) : Move :=
  s.finish (powxDatapath (operandA .w64 s) (operandB .w64 s)).1
    (powxDatapath (operandA .w64 s) (operandB .w64 s)).2

end Sys2Proof.Machine
end

