-- ==== Sys2Proof/Machine/Float.lean ====
section
/-! DEFINITION. The binary64 values SQRT uses (00_scope.md R14): non-negative and finite, so a significand and an
exponent say all of one. There is no floating-point status (R14). -/

namespace Sys2Proof.Machine

/-- The binary64 value mant * 2^exp. A value the operations make is zero with mant = 0, or has 2^52 <= mant < 2^53. -/
structure F64 where
  mant : Nat
  exp : Int
  deriving DecidableEq, Repr

/-- n / 2^s to the nearest integer, a tie to the even one (R14). -/
def roundShift (n s : Nat) : Nat :=
  let q := n / 2 ^ s
  let r := n % 2 ^ s
  if 2 ^ s < 2 * r ∨ (2 * r = 2 ^ s ∧ q % 2 = 1) then q + 1 else q

/-- The value m * 2^e for a significand that rounding may have carried up to 2^53. -/
def F64.normal (m : Nat) (e : Int) : F64 :=
  if m = 2 ^ 53 then { mant := 2 ^ 52, exp := e + 1 } else { mant := m, exp := e }

/-- `f64(n)`: the binary64 value nearest to n, ties to even (R14). -/
def f64 (n : Nat) : F64 :=
  if n = 0 then { mant := 0, exp := 0 }
  else if bitLen n ≤ 53 then
    { mant := n * 2 ^ (53 - bitLen n), exp := (bitLen n : Int) - 53 }
  else F64.normal (roundShift n (bitLen n - 53)) ((bitLen n : Int) - 53)

/-- An integer square root to the nearest integer. A tie cannot arise: (r + 1/2)^2 is no integer. -/
def nearestRoot (n : Nat) : Nat :=
  let r := floorRoot n
  if r * r + r < n then r + 1 else r

/-- `fsqrt(x)`: the binary64 square root, correctly rounded to nearest (R14). The significand is scaled by 2^52 or 2^53,
whichever leaves an even exponent, so that its root has 53 bits. -/
def fsqrt (x : F64) : F64 :=
  if x.mant = 0 then { mant := 0, exp := 0 }
  else
    let k : Nat := if x.exp % 2 = 0 then 52 else 53
    F64.normal (nearestRoot (x.mant * 2 ^ k)) ((x.exp - k) / 2)

/-- `ftrunc(x)`: the integer part (R14). -/
def ftrunc (x : F64) : Nat :=
  if 0 ≤ x.exp then x.mant * 2 ^ x.exp.toNat else x.mant / 2 ^ (-x.exp).toNat

end Sys2Proof.Machine
end

