-- ==== Sys2Proof/Machine/Sqrt.lean ====
section
/-! DEFINITION. SQRT and SQRTX (44_sqrt.md R200 to R205). -/

namespace Sys2Proof.Machine

/-- `sqrt.uW`: the truncated binary64 square root (R201). -/
def execSqrt (w : Width) (s : State) : Move :=
  s.finish (BitVec.ofNat w.bits (ftrunc (fsqrt (f64 (operandA w s).toNat)))) false

/-- `sqrtx.uW`: the exact square root when HAS_SQRTX = 1, an illegal command when it is 0 (R205, R89). -/
def execSqrtx (w : Width) (s : State) : Move :=
  if s.params.hasSqrtx then
    s.finish (BitVec.ofNat w.bits (floorRoot (operandA w s).toNat)) false
  else s.completeIllegal

end Sys2Proof.Machine
end

