-- ==== Sys2Proof/Machine/Dispatch.lean ====
section
/-! DEFINITION. The meaning of each command (30_encoding.md R92), one arm a constructor. -/

namespace Sys2Proof.Machine

def exec (i : Instr) (s : State) : Host.Outcome State Fault Refusal :=
  match i with
  | .abs w => Sys2Proof.Machine.execAbs w s
  | .pow w => Sys2Proof.Machine.execPow w s
  | .powx => Sys2Proof.Machine.execPowx s
  | .binom => Sys2Proof.Machine.execBinom s
  | .flog2 w => Sys2Proof.Machine.execFlog2 w s
  | .clog2 w => Sys2Proof.Machine.execClog2 w s
  | .flog10 w => Sys2Proof.Machine.execFlog10 w s
  | .clog10 w => Sys2Proof.Machine.execClog10 w s
  | .lenU w => Sys2Proof.Machine.execLenU w s
  | .lenS w => Sys2Proof.Machine.execLenS w s
  | .sqrt w => Sys2Proof.Machine.execSqrt w s
  | .sqrtx w => Sys2Proof.Machine.execSqrtx w s

end Sys2Proof.Machine
end

