-- ==== Sys2Proof/Machine/HostProgram.lean ====
section
/-! DEFINITION. The host agent that runs a host program (30_encoding.md R94): its lines become accesses at the port, and
its control flow and arithmetic stay its own. The unit executes none of it (R94). -/

namespace Sys2Proof.Machine

/-- The offset of a register a program names (20_memory.md R50). -/
def HostReg.offset : HostReg → Nat
  | .opa => 0x00
  | .opb => 0x08
  | .cmd => 0x10
  | .res => 0x18
  | .status => 0x20

/-- Whether the host waits for a read of its program: a read's name is bound only when the read is performed (R94). -/
def HostState.awaitsRead (h : HostState) : Bool :=
  h.port.any fun a => match a.kind with
    | .read (some _) => true
    | _ => false

/-- Where a label stands in a program (R94). -/
def findLabel (program : List HostLine) (l : Name) : Option Nat :=
  program.findIdx? (fun line => decide (line = .label l))

/-- The host goes on to its next line. -/
def State.nextLine (s : State) : State :=
  { s with host := { s.host with pc := s.host.pc + 1 } }

/-- The host goes on at a label of its program. -/
def State.gotoLabel (s : State) (l : Name) : Move :=
  match findLabel s.host.program l with
  | some k => .next { s with host := { s.host with pc := k } }
  | none => .refused (.noSuchLabel l)

/-- The host binds a name. -/
def State.bind (s : State) (n : Name) (v : Word) : State :=
  { s with host := { s.host with names := bindName s.host.names n v } }

/-- Goes on with the value bound to a name. -/
def State.withName (s : State) (n : Name) (k : Word → Move) : Move :=
  match lookupName s.host.names n with
  | some v => k v
  | none => .refused (.unboundName n)

/-- Goes on with the value of a program's operand (R94). -/
def State.withValue (s : State) (v : HostValue) (k : Word → Move) : Move :=
  match v with
  | .imm x => k x
  | .name n => s.withName n k

/-- One line of a host program (R94). -/
def State.runLine (s : State) (line : HostLine) : Move :=
  match line with
  | .wr r v => s.withValue v fun x => .next (s.enqueue { kind := .write x, off := r.offset, size := 8 }).nextLine
  | .rd r dst => .next (s.enqueue { kind := .read (some dst), off := r.offset, size := 8 }).nextLine
  | .label _ => .next s.nextLine
  | .beqz n l => s.withName n fun x => if x = 0 then s.gotoLabel l else .next s.nextLine
  | .bnez n l => s.withName n fun x => if x = 0 then .next s.nextLine else s.gotoLabel l
  | .jmp l => s.gotoLabel l
  | .andi dst src imm => s.withName src fun x => .next (s.bind dst (x &&& imm)).nextLine
  | .addi dst src imm => s.withName src fun x => .next (s.bind dst (x + imm)).nextLine
  | .set dst imm => .next (s.bind dst imm).nextLine

/-- The host's turn: it runs its next line, unless it waits for a read or its program has ended. -/
def hostTurn (s : State) : Move :=
  if s.host.awaitsRead then .next s
  else
    match s.host.program[s.host.pc]? with
    | some line => s.runLine line
    | none => .next s

end Sys2Proof.Machine
end

