-- ==== Sys2Proof/Machine/Agents.lean ====
section
/-! DEFINITION. The moves of the two agents and of the platform (00_scope.md R18), and whose turn it is. -/

namespace Sys2Proof.Machine

/-- What completion calls (30_encoding.md R92): the latched word's instruction, or the report of an illegal word. -/
def completeCommand (s : State) : Move :=
  match decode s.unit.curCmd with
  | some i => exec i s
  | none => s.completeIllegal

/-- The unit's turn: completion, enabled exactly when BUSY = 1 (10_state.md R33). -/
def unitTurn (s : State) : Move :=
  if s.unit.status.busy then completeCommand s else .next s

/-- The port's turn: its head access is refused (R52), stays held (R257, R258), or takes effect and leaves (R60). A refused
access changes no state of the unit and puts the host in a fault (R222), and is never held (R224). -/
def portTurn (s : State) : Move :=
  match s.host.port with
  | [] => .next s
  | a :: _ =>
    if a.admitted then
      if a.held s.unit.status then .next s else .next (s.dequeue.perform a)
    else .next (s.dequeue.raise (.busError a.off))

/-- A host agent in a fault makes no more moves: its fault is never cleared (R222). -/
def hostMove (s : State) (m : Move) : Move :=
  match s.host.fault with
  | some f => .fault f
  | none => m

/-- One turn. The unit and the platform move whatever fault the host is in: a refused access affects no command (R224). -/
def runEvent (e : Event) (s : State) : Move :=
  match e with
  | .unit => unitTurn s
  | .port => hostMove s (portTurn s)
  | .host => hostMove s (hostTurn s)
  | .issue a => hostMove s (.next (s.enqueue a))
  | .reset => .next s.resetUnit

/-- Whose turn it is when none is laid down: the unit while it is BUSY, then the port while an access stands there, then
the host while its program has a line left, and the host also when it is in a fault. An idle machine has no turn
(60_exceptions.md R234). With it a BUSY unit completes and a held access is performed (70_reset_and_hazards.md R264). -/
def defaultEvent (s : State) : Option Event :=
  if s.unit.status.busy then some .unit
  else if s.host.port ≠ [] then some .port
  else if s.host.fault ≠ none ∨ s.host.pc < s.host.program.length then some .host
  else none

/-- One step of the machine: the next turn laid down, or the turn of the fixed order. -/
def takeTurn (s : State) : Move :=
  match s.host.script with
  | e :: rest => runEvent e { s with host := { s.host with script := rest } }
  | [] =>
    match defaultEvent s with
    | some e => runEvent e s
    | none => .next s

/-- The turns with the unit's next. With none laid down it is the unit's already, once it is BUSY. -/
def unitFirst : List Event → List Event
  | [] => []
  | e :: rest => .unit :: e :: rest

/-- The state right after a CMD write of `c` was performed (R32), with the unit's turn next. -/
def State.withCommand (s : State) (c : Word) : State :=
  { s with
    unit := s.unit.issue c
    host := { s.host with script := unitFirst s.host.script } }

end Sys2Proof.Machine
end

