-- ==== Sys2Proof/Machine/Step.lean ====
section
/-! DEFINITION. One step, and where it finds the command it runs: the unit fetches nothing (10_state.md R21), and runs the
word that a CMD write latched (R32, R33). -/

namespace Sys2Proof.Machine

/-- One step of the machine: one turn of one agent (R18, R60). -/
def step (s : State) : Host.Outcome State Fault Refusal := takeTurn s

/-- `s` with a command word issued, so that the very next step runs exactly it (notes/assumptions/7.md). -/
def State.withFetchWord (s : State) (nbits w : Nat) : State := s.withCommand (tableWord nbits w)

end Sys2Proof.Machine
end

