-- ==== Sys2Proof/Machine/Assembler.lean ====
section
/-! DEFINITION. The assembler's spellings (30_encoding.md R93 to R97). -/

namespace Sys2Proof.Machine

/-- The mnemonics of R93, and the alias of R97. -/
inductive Mnemonic where
  | abs
  | pow
  | powx
  | binom
  | flog2
  | clog2
  | flog10
  | clog10
  | len
  | sqrt
  | sqrtx
  | flog10p1
  deriving DecidableEq, Repr

/-- The width a spelling names: a number, or the native width of `.un` and `.sn` (R97). -/
inductive SpelledWidth where
  | bits (w : Width)
  | native
  deriving DecidableEq, Repr

/-- A spelling `<mnemonic>.<t><W>` (R93): `signed` is t = `s`. -/
structure Spelling where
  mnemonic : Mnemonic
  signed : Bool
  width : SpelledWidth
  deriving DecidableEq, Repr

/-- The opcode of a mnemonic (R88, R93, R97). -/
def Mnemonic.opcode : Mnemonic → Nat
  | .abs => 0x01
  | .pow => 0x02
  | .powx => 0x03
  | .binom => 0x04
  | .flog2 => 0x05
  | .clog2 => 0x06
  | .flog10 => 0x07
  | .clog10 => 0x08
  | .len => 0x09
  | .sqrt => 0x0A
  | .sqrtx => 0x0B
  | .flog10p1 => 0x09

/-- The width a spelling means under NATIVE_WIDTH (R97). -/
def SpelledWidth.resolve (p : Params) : SpelledWidth → Width
  | .bits w => w
  | .native => p.native.toWidth

/-- The command word of a spelling; the assembler refuses a spelling that R89 makes illegal (R93). `flog10p1` is an alias
of `len.uW` alone, so it takes no `s` (R97). -/
def assemble (p : Params) (sp : Spelling) : Option Word :=
  let c := packWord sp.mnemonic.opcode sp.signed (sp.width.resolve p)
  if legal p.hasSqrtx c ∧ ¬(sp.mnemonic = .flog10p1 ∧ sp.signed) then some c else none

/-- `cmd.raw <imm64>` (R93, R94). -/
def cmdRaw (c : Word) : HostLine := .wr .cmd (.imm c)

/-- `cmd <command>` (R94). -/
def cmdLine (p : Params) (sp : Spelling) : Option HostLine := (assemble p sp).map cmdRaw

/-- Whether a command reads OPB: POW, POWX and BINOM do, and every other command ignores it (10_state.md R23). -/
def Mnemonic.readsOpb : Mnemonic → Bool
  | .abs => false
  | .pow => true
  | .powx => true
  | .binom => true
  | .flog2 => false
  | .clog2 => false
  | .flog10 => false
  | .clog10 => false
  | .len => false
  | .sqrt => false
  | .sqrtx => false
  | .flog10p1 => false

/-- The lines of `call` that load OPB (R95). Only a one-operand command may leave b out; without b a command that reads
OPB is refused (notes/assumptions/17.md). -/
def opbLines (m : Mnemonic) (b : Option HostValue) : Option (List HostLine) :=
  match b with
  | some v => some [.wr .opb v]
  | none => if m.readsOpb then none else some []

/-- `call <command> <a>, <b> -> <res>, <st>` (R95). -/
def callLines (p : Params) (sp : Spelling) (a : HostValue) (b : Option HostValue) (res st : Name) :
    Option (List HostLine) :=
  match cmdLine p sp, opbLines sp.mnemonic b with
  | some c, some loadB => some ([.wr .opa a] ++ loadB ++ [c, .rd .res res, .rd .status st])
  | _, _ => none

/-- `poll -> <st>` (R96), with its label and its scratch name `t`. -/
def pollLines (loop t st : Name) : List HostLine :=
  [.label loop, .rd .status st, .andi t st 1, .bnez t loop]

end Sys2Proof.Machine
end

