-- ==== Sys2Proof/Safety.lean ====
section
/-! DEFINITION. What counts as a good state and a good host, in the terms the statements use. -/

namespace Sys2Proof.Machine

/-- What every state the machine can reach keeps. -/
structure State.Inv (s : State) : Prop where
  /-- (BUSY, DONE) = (1, 1) never occurs (R26). -/
  notBoth : ¬(s.unit.status.busy = true ∧ s.unit.status.done = true)
  /-- OVF and ILL are flags of a completed command (R26, R32). -/
  flagsNeedDone : s.unit.status.done = false → s.unit.status.ovf = false ∧ s.unit.status.ill = false
  /-- A command reports at most one condition (R224). -/
  oneCondition : ¬(s.unit.status.ovf = true ∧ s.unit.status.ill = true)
  /-- RES = 0 when OVF = 1 or ILL = 1 (R27, R90). -/
  zeroWhenFlagged : s.unit.status.ovf = true ∨ s.unit.status.ill = true → s.unit.res = 0
  /-- CMD is the word latched last (R24, R31, R32). -/
  cmdIsLatched : s.unit.status.busy = true ∨ s.unit.status.done = true → s.unit.cmd = s.unit.curCmd
  /-- Before any command, CMD and RES hold the reset value (R24, R256). -/
  beforeAnyCommand : s.unit.status.busy = false → s.unit.status.done = false → s.unit.cmd = 0 ∧ s.unit.res = 0
  /-- RES and STATUS are those of the latched command: completing it again would change nothing (R25, R226). -/
  resultIsTheLatched : s.unit.status.done = true → completeCommand s = .next s
  /-- The tables hold their contents (R37, R253). -/
  dbtabHolds : s.unit.dbtab = dbtabContents
  d10tabHolds : s.unit.d10tab = d10tabContents
  /-- The bound host names stay in their canonical form. -/
  namesCanonical : namesWf s.host.names

/-- A turn that a host keeping to the admitted accesses can see: no refused access and no reset. -/
def Event.sound : Event → Bool
  | .unit => true
  | .port => true
  | .host => true
  | .issue a => a.admitted
  | .reset => false

/-- The names a line of a host program reads (30_encoding.md R94). -/
def HostLine.reads : HostLine → List Name
  | .wr _ (.imm _) => []
  | .wr _ (.name n) => [n]
  | .rd _ _ => []
  | .label _ => []
  | .beqz n _ => [n]
  | .bnez n _ => [n]
  | .jmp _ => []
  | .andi _ src _ => [src]
  | .addi _ src _ => [src]
  | .set _ _ => []

/-- The name a line binds (R94). -/
def HostLine.binds : HostLine → Option Name
  | .wr _ _ => none
  | .rd _ dst => some dst
  | .label _ => none
  | .beqz _ _ => none
  | .bnez _ _ => none
  | .jmp _ => none
  | .andi dst _ _ => some dst
  | .addi dst _ _ => some dst
  | .set dst _ => some dst

/-- The label a line can branch to (R94). -/
def HostLine.target : HostLine → Option Name
  | .wr _ _ => none
  | .rd _ _ => none
  | .label _ => none
  | .beqz _ l => some l
  | .bnez _ l => some l
  | .jmp l => some l
  | .andi _ _ _ => none
  | .addi _ _ _ => none
  | .set _ _ => none

/-- Whether the host can come from line `k` of a program, which is `line`, to line `j`: to a label the line branches to,
and to the next line from every line but a `jmp` (R94). -/
def HostLine.leadsTo (program : List HostLine) (k : Nat) (line : HostLine) (j : Nat) : Prop :=
  (j = k + 1 ∧ ∀ l, line ≠ .jmp l) ∨ ∃ l, line.target = some l ∧ findLabel program l = some j

/-- A host program whose labels are all there, and whose names are bound before they are read on every path through it:
`bound k` holds of names that are bound whenever the host comes to line `k`. -/
structure SoundProgram (program : List HostLine) (bound : Nat → Name → Prop) : Prop where
  labelsFound : ∀ line ∈ program, ∀ l, line.target = some l → ∃ j, findLabel program l = some j
  readsBound : ∀ k line, program[k]? = some line → ∀ n ∈ line.reads, bound k n
  boundOnEveryPath : ∀ k line, program[k]? = some line → ∀ j, line.leadsTo program k j →
    ∀ n, bound j n → bound k n ∨ line.binds = some n

/-- A name that is bound, or that a read waiting at the port will bind. -/
def HostState.hasName (h : HostState) (n : Name) : Prop :=
  (∃ v, lookupName h.names n = some v) ∨ ∃ a ∈ h.port, a.kind = .read (some n)

/-- A host without a fault, whose program is sound from the line it stands at, all of whose accesses, made and laid down,
are admitted, and no reset laid down. A host without a program is one. -/
structure State.SoundHost (s : State) : Prop where
  noFault : s.host.fault = none
  programSound : ∃ bound, SoundProgram s.host.program bound ∧ ∀ n, bound s.host.pc n → s.host.hasName n
  portAdmitted : ∀ a ∈ s.host.port, a.admitted = true
  scriptSound : ∀ e ∈ s.host.script, e.sound = true

end Sys2Proof.Machine
end

