-- ==== Sys2Proof/WellFormed.lean ====
section
/-! DEFINITION. Which commands a unit with given parameters has. The widths and signednesses a row takes are built into
`Instr`; the one check left is the presence of the optional SQRTX (00_scope.md R3, R9; 44_sqrt.md R205). -/

namespace Sys2Proof

/-- A command the unit has: SQRTX only when HAS_SQRTX = 1, every other command always (30_encoding.md R89). -/
def Instr.wellFormed (p : Params) : Instr → Bool
  | .sqrtx _ => p.hasSqrtx
  | .abs _ => true
  | .pow _ => true
  | .powx => true
  | .binom => true
  | .flog2 _ => true
  | .clog2 _ => true
  | .flog10 _ => true
  | .clog10 _ => true
  | .lenU _ => true
  | .lenS _ => true
  | .sqrt _ => true

end Sys2Proof
end

