-- ==== Sys2Proof/Certificates/Slice0/Obligations.lean ====
section
/-! DEFINITION. The statements for the provers. They are written from the rules of spec/, with a vocabulary of their own
(namespace Spec) that says what a rule says without the model's operations, so that a slip in an operation is not
repeated in its statement. A statement of a command's result is also its completion statement and its frame: the whole
next state is written out. -/

namespace Sys2Proof.Spec

open Sys2Proof.Machine

/-- The state `s` with RES and STATUS as a completion leaves them, and everything else as it was (10_state.md R33). -/
def doneWith (s : State) (res : Word) (ovf ill : Bool) : State :=
  { s with
    unit := { s.unit with
      res := res
      status := { busy := false, done := true, ovf := ovf, ill := ill } } }

/-- uint of the low W bits of a register (R10, R86). -/
def low (w : Width) (x : Word) : Nat := x.toNat % 2 ^ w.bits

/-- sint_W of the low W bits of a register (R10, R84). -/
def slow (w : Width) (x : Word) : Int :=
  if low w x < 2 ^ (w.bits - 1) then low w x else (low w x : Int) - 2 ^ w.bits

/-- The number of decimal digits of a natural number: one for 0. -/
def decimalDigits (m : Nat) : Nat := if m = 0 then 1 else (Nat.digits 10 m).length

/-- One of the four words a row of R91 prints, by width. -/
def word4 (w : Width) (c8 c16 c32 c64 : Nat) : Word :=
  match w with
  | .w8 => BitVec.ofNat 64 c8
  | .w16 => BitVec.ofNat 64 c16
  | .w32 => BitVec.ofNat 64 c32
  | .w64 => BitVec.ofNat 64 c64

/-- The operand width of a command (R83, R89). -/
def widthOf : Instr → Width
  | .abs w => w
  | .pow w => w
  | .powx => .w64
  | .binom => .w64
  | .flog2 w => w
  | .clog2 w => w
  | .flog10 w => w
  | .clog10 w => w
  | .lenU w => w
  | .lenS w => w
  | .sqrt w => w
  | .sqrtx w => w

/-- The four kinds of illegal word of R90, in the order of the rule, on the fields OP, WID, SGN and RSV of a word. -/
abbrev illegalFields (hasSqrtx : Bool) (op wid sgn rsv : Nat) : Prop :=
  (op = 0x00 ∨ 0x0C ≤ op) ∨
    (op = 0x0B ∧ hasSqrtx = false) ∨
    ((op = 0x01 ∧ sgn = 0) ∨ (op ≠ 0x01 ∧ op ≠ 0x09 ∧ sgn = 1) ∨ ((op = 0x03 ∨ op = 0x04) ∧ wid ≠ 3)) ∨
    rsv ≠ 0

/-- The words R90 calls illegal, their fields (R81) read off the number c. -/
abbrev illegalWord (hasSqrtx : Bool) (c : Nat) : Prop :=
  illegalFields hasSqrtx (c % 256) (c / 256 % 4) (c / 1024 % 2) (c / 2048)

/-- The 38 legal words every unit has, as R91 prints them. -/
def legalWords : List Nat :=
  [0x401, 0x501, 0x601, 0x701, 0x002, 0x102, 0x202, 0x302, 0x303, 0x304] ++
  [0x005, 0x105, 0x205, 0x305, 0x006, 0x106, 0x206, 0x306] ++
  [0x007, 0x107, 0x207, 0x307, 0x008, 0x108, 0x208, 0x308] ++
  [0x009, 0x109, 0x209, 0x309, 0x409, 0x509, 0x609, 0x709] ++
  [0x00A, 0x10A, 0x20A, 0x30A]

/-- The four words of SQRTX (R91). -/
def sqrtxWords : List Nat := [0x00B, 0x10B, 0x20B, 0x30B]

/-- The unit is BUSY and its turn is the next; `s'` is the state it takes the turn in. -/
def unitsTurn (s s' : State) : Prop :=
  s.unit.status.busy = true ∧
    ((s.host.script = [] ∧ s' = s) ∨
      ∃ rest, s.host.script = .unit :: rest ∧ s' = { s with host := { s.host with script := rest } })

/-- The host is in no fault and the port's turn is the next; `s'` is the state it takes the turn in. -/
def portsTurn (s s' : State) : Prop :=
  s.host.fault = none ∧
    ((s.host.script = [] ∧ s.unit.status.busy = false ∧ s' = s) ∨
      ∃ rest, s.host.script = .port :: rest ∧ s' = { s with host := { s.host with script := rest } })

/-- The host is in no fault and its turn is the next; `s'` is the state it takes the turn in. -/
def hostsTurn (s s' : State) : Prop :=
  s.host.fault = none ∧
    ((s.host.script = [] ∧ s.unit.status.busy = false ∧ s.host.port = [] ∧
        s.host.pc < s.host.program.length ∧ s' = s) ∨
      ∃ rest, s.host.script = .host :: rest ∧ s' = { s with host := { s.host with script := rest } })

/-- A read that a host program made, which binds a name, stands at the port. -/
def namedReadAtPort (s : State) : Prop := ∃ a ∈ s.host.port, ∃ n, a.kind = .read (some n)

/-- The accesses that turns put at the port, in their order. -/
def issuedBy (turns : List Event) : List BusAccess :=
  turns.filterMap fun e => match e with
    | .issue a => some a
    | _ => none

/-- The state `s` after a read of RES at the head of its port has waited for the command in flight and returned `res`:
the unit is `u`, the read has left the port, behind which `more` has come, its value is seen and, where the read has a
name, bound, and the turns `after` are left. -/
def afterHeldRead (s : State) (u : UnitState) (res : Word) (dst : Option Name) (rest more : List BusAccess)
    (after : List Event) : State :=
  { s with
    unit := u
    host := { s.host with
      script := after
      port := rest ++ more
      trace := .read 0x18 res :: s.host.trace
      names := match dst with
        | some n => bindName s.host.names n res
        | none => s.host.names } }

/-- The host's step from `s` goes to the first line of its program that is the label `l`, and is refused where there is
none. -/
def branchesTo (s s' : State) (l : Name) : Prop :=
  (∀ k, s.host.program[k]? = some (.label l) → (∀ j < k, s.host.program[j]? ≠ some (.label l)) →
    step s = .next { s' with host := { s'.host with pc := k } }) ∧
  (.label l ∉ s.host.program → step s = .refused (.noSuchLabel l))

/-- What the map of R50 gives for a read. -/
def registerAt (u : UnitState) (off : Nat) : Word :=
  if off = 0x00 then u.opa
  else if off = 0x08 then u.opb
  else if off = 0x10 then u.cmd
  else if off = 0x18 then u.res
  else if off = 0x20 then
    BitVec.ofNat 64 ((if u.status.busy then 1 else 0) + (if u.status.done then 2 else 0) +
      (if u.status.ovf then 4 else 0) + (if u.status.ill then 8 else 0))
  else 0

/-- The instruction a spelling of R93 and R97 names; `none` where R89 makes it illegal in every unit. -/
def spelled (m : Mnemonic) (signed : Bool) (w : Width) : Option Instr :=
  match m, signed, w with
  | .abs, true, w => some (.abs w)
  | .pow, false, w => some (.pow w)
  | .powx, false, .w64 => some .powx
  | .binom, false, .w64 => some .binom
  | .flog2, false, w => some (.flog2 w)
  | .clog2, false, w => some (.clog2 w)
  | .flog10, false, w => some (.flog10 w)
  | .clog10, false, w => some (.clog10 w)
  | .len, false, w => some (.lenU w)
  | .len, true, w => some (.lenS w)
  | .flog10p1, false, w => some (.lenU w)
  | .sqrt, false, w => some (.sqrt w)
  | .sqrtx, false, w => some (.sqrtx w)
  | _, _, _ => none

/-- The real number a binary64 value stands for. -/
noncomputable def real (x : F64) : ℝ := (x.mant : ℝ) * (2 : ℝ) ^ x.exp

/-- A finite non-negative binary64 value: a 53-bit significand and an exponent in the format's range. -/
def binary64 (x : F64) : Prop := x.mant < 2 ^ 53 ∧ -1074 ≤ x.exp ∧ x.exp ≤ 971

end Sys2Proof.Spec

open Sys2Proof Sys2Proof.Machine Sys2Proof.Spec

/-! ### The command word -/

/-- R81, R88, R89: each word encodes at most one instruction and each instruction has one word, no bit of which is dropped. -/
def Obligations.DecodeInvertsEncode : Prop :=
  ∀ (c : Word) (i : Instr), decode c = some i ↔ c = encode i

/-- R91: the legal words are exactly the 42 (38) that the rule prints. -/
def Obligations.LegalWordsAreThePrinted : Prop :=
  (∀ c : Word, legal true c = true ↔ c.toNat ∈ legalWords ++ sqrtxWords) ∧
    (∀ c : Word, legal false c = true ↔ c.toNat ∈ legalWords) ∧
    (legalWords ++ sqrtxWords).length = 42 ∧ (legalWords ++ sqrtxWords).Nodup

/-- R88, R91: a few words written out from the rule's table. -/
def Obligations.SampleWordsDecode : Prop :=
  decode 0x601 = some (.abs .w32) ∧ decode 0x102 = some (.pow .w16) ∧ decode 0x303 = some .powx ∧
    decode 0x304 = some .binom ∧ decode 0x005 = some (.flog2 .w8) ∧ decode 0x308 = some (.clog10 .w64) ∧
    decode 0x509 = some (.lenS .w16) ∧ decode 0x209 = some (.lenU .w32) ∧ decode 0x30A = some (.sqrt .w64) ∧
    decode 0x00B = some (.sqrtx .w8) ∧ decode 0x001 = none ∧ decode 0x203 = none ∧ decode 0x805 = none

/-- R90, with the four kinds of illegal word of the rule: at its completion an illegal command leaves RES = 0, OVF = 0,
ILL = 1 and DONE = 1 and nothing else changes, and a legal one never sets ILL (R224). -/
def Obligations.IllegalWordIsReported : Prop :=
  ∀ s s' : State, unitsTurn s s' →
    (illegalWord s.params.hasSqrtx s.unit.curCmd.toNat → step s = .next (doneWith s' 0 false true)) ∧
    (¬illegalWord s.params.hasSqrtx s.unit.curCmd.toNat →
      ∃ res ovf, step s = .next (doneWith s' res ovf false))

/-- R92: a step at which the unit completes runs the instruction its latched word decodes to. -/
def Obligations.StepRunsDecodedCommand : Prop :=
  ∀ (s s' : State) (i : Instr), unitsTurn s s' → decode s.unit.curCmd = some i → step s = exec i s'

/-- The model's own `withFetchWord` (log entry 7): the very next step runs the word's instruction, on the operands in OPA
and OPB, and the turns laid down before stand as they stood. -/
def Obligations.FetchWordRunsNext : Prop :=
  ∀ (s : State) (i : Instr),
    decodeTableWord 64 (encode i).toNat = some i ∧
    step (s.withFetchWord 64 (encode i).toNat) =
      exec i { s with
        unit := { s.unit with
          cmd := encode i
          curCmd := encode i
          curA := s.unit.opa
          curB := s.unit.opb
          status := { busy := true, done := false, ovf := false, ill := false } } }

/-! ### ABS -/

/-- R110: the words of abs.sW, its value trunc_W(|sint_W(a)|), its flags, and its frame. -/
def Obligations.AbsGivesMagnitude : Prop :=
  (∀ w, decode (word4 w 0x401 0x501 0x601 0x701) = some (.abs w) ∧
      decode (word4 w 0x001 0x101 0x201 0x301) = none) ∧
    ∀ (w : Width) (s : State),
      exec (.abs w) s =
        .next (doneWith s (BitVec.ofNat 64 ((slow w s.unit.curA).natAbs % 2 ^ w.bits)) false false)

/-- R111: the minimum is returned unchanged, with no flag. -/
def Obligations.AbsOfMinimumWraps : Prop :=
  ∀ (w : Width) (s : State), low w s.unit.curA = 2 ^ (w.bits - 1) →
    exec (.abs w) s = .next (doneWith s (BitVec.ofNat 64 (2 ^ (w.bits - 1))) false false)

/-- R112: for every other operand the result, read as signed, is the absolute value. -/
def Obligations.AbsReadsAsAbsoluteValue : Prop :=
  ∀ (w : Width) (s : State), low w s.unit.curA ≠ 2 ^ (w.bits - 1) →
    ∃ res, exec (.abs w) s = .next (doneWith s res false false) ∧
      slow w res = if slow w s.unit.curA < 0 then -slow w s.unit.curA else slow w s.unit.curA

/-! ### POW and POWX -/

/-- R120: the words of pow.uW, the power modulo 2^W, OVF = 0 always, and the frame. -/
def Obligations.PowIsPowerModWidth : Prop :=
  (∀ w, decode (word4 w 0x002 0x102 0x202 0x302) = some (.pow w)) ∧
    ∀ (w : Width) (s : State),
      exec (.pow w) s =
        .next (doneWith s
          (BitVec.ofNat 64 (low w s.unit.curA ^ low w s.unit.curB % 2 ^ w.bits)) false false)

/-- R121: exponent 0 gives 1 for every base; base 2 gives 2^k within the width and 0 beyond it. -/
def Obligations.PowOfTwoShifts : Prop :=
  ∀ (w : Width) (s : State),
    (low w s.unit.curB = 0 → exec (.pow w) s = .next (doneWith s 1 false false)) ∧
    (low w s.unit.curA = 2 → low w s.unit.curB < w.bits →
      exec (.pow w) s = .next (doneWith s (BitVec.ofNat 64 (2 ^ low w s.unit.curB)) false false)) ∧
    (low w s.unit.curA = 2 → w.bits ≤ low w s.unit.curB →
      exec (.pow w) s = .next (doneWith s 0 false false))

/-- R125: the datapath meets the contract: the exact power, or 0 with OVF = 1 exactly when it exceeds 2^64 - 1. -/
def Obligations.PowxMeetsContract : Prop :=
  decode 0x303 = some .powx ∧
    ∀ s : State,
      exec .powx s =
        .next (if s.unit.curA.toNat ^ s.unit.curB.toNat > 2 ^ 64 - 1 then doneWith s 0 true false
          else doneWith s (BitVec.ofNat 64 (s.unit.curA.toNat ^ s.unit.curB.toNat)) false false)

/-! ### BINOM -/

/-- R141: the datapath meets the contract: 0 without a flag when k > n, 0 with OVF = 1 when C(n, k) exceeds 2^64 - 1, and
otherwise C(n, k). -/
def Obligations.BinomMeetsContract : Prop :=
  decode 0x304 = some .binom ∧
    ∀ s : State,
      exec .binom s =
        .next (if s.unit.curB.toNat > s.unit.curA.toNat then doneWith s 0 false false
          else if s.unit.curA.toNat.choose s.unit.curB.toNat > 2 ^ 64 - 1 then doneWith s 0 true false
          else doneWith s (BitVec.ofNat 64 (s.unit.curA.toNat.choose s.unit.curB.toNat)) false false)

/-- R147: up to row 67 every entry fits and comes out exact, and (68, 34) overflows. -/
def Obligations.BinomRowSixtySeven : Prop :=
  ∀ s : State,
    (s.unit.curA.toNat ≤ 67 → s.unit.curB.toNat ≤ s.unit.curA.toNat →
      ∃ res, exec .binom s = .next (doneWith s res false false) ∧
        res.toNat = s.unit.curA.toNat.choose s.unit.curB.toNat) ∧
    (s.unit.curA = 67 → s.unit.curB = 33 →
      exec .binom s = .next (doneWith s 0xC56EC13C4B95E372 false false)) ∧
    (s.unit.curA = 68 → s.unit.curB = 34 → exec .binom s = .next (doneWith s 0 true false))

/-! ### Logarithm and length -/

/-- R161, R172: flog2.uW. The de Bruijn datapath (R162) gives the floor of the logarithm of every operand above 0. -/
def Obligations.FlogTwoIsFloor : Prop :=
  (∀ w, decode (word4 w 0x005 0x105 0x205 0x305) = some (.flog2 w)) ∧
    ∀ (w : Width) (s : State), s.unit.dbtab = dbtabContents →
      (low w s.unit.curA ≠ 0 →
        ∃ m : Nat, 2 ^ m ≤ low w s.unit.curA ∧ low w s.unit.curA < 2 ^ (m + 1) ∧
          exec (.flog2 w) s = .next (doneWith s (BitVec.ofNat 64 m) false false)) ∧
      (low w s.unit.curA = 0 →
        exec (.flog2 w) s = .next (doneWith s ((Config.logZero .flog2 w).setWidth 64) false false))

/-- R163: clog2.uW gives the smallest k with 2^k >= u. -/
def Obligations.ClogTwoIsCeiling : Prop :=
  (∀ w, decode (word4 w 0x006 0x106 0x206 0x306) = some (.clog2 w)) ∧
    ∀ (w : Width) (s : State),
      (low w s.unit.curA ≠ 0 →
        ∃ k : Nat, low w s.unit.curA ≤ 2 ^ k ∧ (∀ j : Nat, low w s.unit.curA ≤ 2 ^ j → k ≤ j) ∧
          exec (.clog2 w) s = .next (doneWith s (BitVec.ofNat 64 k) false false)) ∧
      (low w s.unit.curA = 0 →
        exec (.clog2 w) s = .next (doneWith s ((Config.logZero .clog2 w).setWidth 64) false false))

/-- R167, R168: flog10.uW gives the f with 10^f <= u < 10^(f+1). -/
def Obligations.FlogTenIsFloor : Prop :=
  (∀ w, decode (word4 w 0x007 0x107 0x207 0x307) = some (.flog10 w)) ∧
    ∀ (w : Width) (s : State), s.unit.d10tab = d10tabContents →
      (low w s.unit.curA ≠ 0 →
        ∃ f : Nat, 10 ^ f ≤ low w s.unit.curA ∧ low w s.unit.curA < 10 ^ (f + 1) ∧
          exec (.flog10 w) s = .next (doneWith s (BitVec.ofNat 64 f) false false)) ∧
      (low w s.unit.curA = 0 →
        exec (.flog10 w) s = .next (doneWith s ((Config.logZero .flog10 w).setWidth 64) false false))

/-- R169: clog10.uW gives the smallest c with u <= 10^c. -/
def Obligations.ClogTenIsCeiling : Prop :=
  (∀ w, decode (word4 w 0x008 0x108 0x208 0x308) = some (.clog10 w)) ∧
    ∀ (w : Width) (s : State), s.unit.d10tab = d10tabContents →
      (low w s.unit.curA ≠ 0 →
        ∃ c : Nat, low w s.unit.curA ≤ 10 ^ c ∧ (∀ j : Nat, low w s.unit.curA ≤ 10 ^ j → c ≤ j) ∧
          exec (.clog10 w) s = .next (doneWith s (BitVec.ofNat 64 c) false false)) ∧
      (low w s.unit.curA = 0 →
        exec (.clog10 w) s = .next (doneWith s ((Config.logZero .clog10 w).setWidth 64) false false))

/-- R165: len.uW and len.sW give the number of characters of the operand's base-10 representation, the minus sign
counted, for every operand. -/
def Obligations.LenCountsCharacters : Prop :=
  (∀ w, decode (word4 w 0x009 0x109 0x209 0x309) = some (.lenU w) ∧
      decode (word4 w 0x409 0x509 0x609 0x709) = some (.lenS w)) ∧
    ∀ (w : Width) (s : State), s.unit.d10tab = d10tabContents →
      exec (.lenU w) s =
        .next (doneWith s (BitVec.ofNat 64 (decimalDigits (low w s.unit.curA))) false false) ∧
      exec (.lenS w) s =
        .next (doneWith s
          (BitVec.ofNat 64 (decimalDigits (slow w s.unit.curA).natAbs +
            if slow w s.unit.curA < 0 then 1 else 0)) false false)

/-- R172: a logarithm command with operand 0 completes with the free value LOGZERO(op, W), whatever it is, and no flag. -/
def Obligations.LogOfZeroIsFree : Prop :=
  ∀ (w : Width) (s : State), low w s.unit.curA = 0 →
    exec (.flog2 w) s = .next (doneWith s ((Config.logZero .flog2 w).setWidth 64) false false) ∧
    exec (.clog2 w) s = .next (doneWith s ((Config.logZero .clog2 w).setWidth 64) false false) ∧
    exec (.flog10 w) s = .next (doneWith s ((Config.logZero .flog10 w).setWidth 64) false false) ∧
    exec (.clog10 w) s = .next (doneWith s ((Config.logZero .clog10 w).setWidth 64) false false)

/-- R173: the two base-2 logarithms of an operand above 0 differ by at most 1, and agree exactly at the powers of two. -/
def Obligations.LogTwoSandwich : Prop :=
  ∀ (w : Width) (s : State), s.unit.dbtab = dbtabContents → low w s.unit.curA ≠ 0 →
    ∃ f c : Nat,
      exec (.flog2 w) s = .next (doneWith s (BitVec.ofNat 64 f) false false) ∧
      exec (.clog2 w) s = .next (doneWith s (BitVec.ofNat 64 c) false false) ∧
      f ≤ c ∧ c ≤ f + 1 ∧ 2 ^ f ≤ low w s.unit.curA ∧ low w s.unit.curA < 2 ^ (f + 1) ∧
      (c = f ↔ ∃ j : Nat, low w s.unit.curA = 2 ^ j)

/-- R171: a command of a narrower width gives the number that width 64 gives for the same mathematical operand. -/
def Obligations.NarrowLogAgreesWithWide : Prop :=
  ∀ (w : Width) (s : State), s.unit.dbtab = dbtabContents → s.unit.d10tab = d10tabContents →
    let wide : State := { s with unit := { s.unit with curA := BitVec.ofNat 64 (low w s.unit.curA) } }
    let swide : State := { s with unit := { s.unit with curA := BitVec.ofInt 64 (slow w s.unit.curA) } }
    (low w s.unit.curA ≠ 0 → ∃ a b c d,
      exec (.flog2 w) s = .next (doneWith s a false false) ∧
      exec (.flog2 .w64) wide = .next (doneWith wide a false false) ∧
      exec (.clog2 w) s = .next (doneWith s b false false) ∧
      exec (.clog2 .w64) wide = .next (doneWith wide b false false) ∧
      exec (.flog10 w) s = .next (doneWith s c false false) ∧
      exec (.flog10 .w64) wide = .next (doneWith wide c false false) ∧
      exec (.clog10 w) s = .next (doneWith s d false false) ∧
      exec (.clog10 .w64) wide = .next (doneWith wide d false false)) ∧
    ∃ u v,
      exec (.lenU w) s = .next (doneWith s u false false) ∧
      exec (.lenU .w64) wide = .next (doneWith wide u false false) ∧
      exec (.lenS w) s = .next (doneWith s v false false) ∧
      exec (.lenS .w64) swide = .next (doneWith swide v false false)

/-! ### Square root -/

/-- R201: sqrt.uW is the truncated binary64 square root. The result always fits in W bits, within the bound the rule gives,
so nothing is cut off. -/
def Obligations.SqrtFollowsFloatPath : Prop :=
  (∀ w, decode (word4 w 0x00A 0x10A 0x20A 0x30A) = some (.sqrt w)) ∧
    ∀ (w : Width) (s : State),
      ftrunc (fsqrt (f64 (low w s.unit.curA))) ≤ (if w = .w64 then 2 ^ 32 else 2 ^ (w.bits / 2) - 1) ∧
      exec (.sqrt w) s =
        .next (doneWith s (BitVec.ofNat 64 (ftrunc (fsqrt (f64 (low w s.unit.curA))))) false false)

/-- R14, f64: the binary64 value nearest to n, and of two equally near the one whose significand is even. The rounding is
the spec's own decision (G1 of 93_implementation_defined.md). -/
def Obligations.ConversionIsNearestEven : Prop :=
  ∀ n : Nat, n < 2 ^ 64 →
    binary64 (f64 n) ∧
    ∀ y : F64, binary64 y →
      |(n : ℝ) - real (f64 n)| ≤ |(n : ℝ) - real y| ∧
      (|(n : ℝ) - real (f64 n)| = |(n : ℝ) - real y| → real y ≠ real (f64 n) → (f64 n).mant % 2 = 0)

/-- R14, fsqrt: the binary64 value nearest to the square root of the converted operand. -/
def Obligations.RootIsNearest : Prop :=
  ∀ n : Nat, n < 2 ^ 64 →
    binary64 (fsqrt (f64 n)) ∧
    ∀ y : F64, binary64 y →
      |Real.sqrt (real (f64 n)) - real (fsqrt (f64 n))| ≤ |Real.sqrt (real (f64 n)) - real y|

/-- R14, ftrunc: the integer part. -/
def Obligations.TruncationIsIntegerPart : Prop :=
  ∀ x : F64, (ftrunc x : ℝ) ≤ real x ∧ real x < (ftrunc x : ℝ) + 1

/-- R202, its first sentence and its first departure: sqrt.uW is the exact floor below 2^52 + 2^27, so for every operand of
8, 16 and 32 bits, and at that operand it is one too high. The value there rests on the rounding of log entry 12
(PRESUMED), the spec's own decision (G1 of 93_implementation_defined.md). -/
def Obligations.SqrtExactBelowBound : Prop :=
  (∀ (w : Width) (s : State), low w s.unit.curA < 2 ^ 52 + 2 ^ 27 →
    exec (.sqrt w) s =
      .next (doneWith s (BitVec.ofNat 64 (Nat.sqrt (low w s.unit.curA))) false false)) ∧
    ∀ s : State, s.unit.curA = 0x10000008000000 →
      exec (.sqrt .w64) s = .next (doneWith s 67108865 false false)

/-- R202, its statement about every operand, which the spec evaluated and did not prove: where SQRT and the exact floor
differ, SQRT is larger by 1. At and above 2^52 + 2^27 it rests on the rounding of log entry 12 (PRESUMED; G1 of
93_implementation_defined.md). -/
def Obligations.SqrtWithinOneOfFloor : Prop :=
  ∀ (w : Width) (s : State), ∃ r : Nat,
    exec (.sqrt w) s = .next (doneWith s (BitVec.ofNat 64 r) false false) ∧
    (r = Nat.sqrt (low w s.unit.curA) ∨ r = Nat.sqrt (low w s.unit.curA) + 1)

/-- R203: at the top of the 64-bit range. These values rest on the rounding of log entry 12 (PRESUMED), which is the spec's
own decision from general knowledge (G1 of 93_implementation_defined.md) and unsafe here. -/
def Obligations.SqrtAtTopOfRange : Prop :=
  ∀ s : State,
    (0xFFFFFFFFFFFFFC00 ≤ s.unit.curA.toNat →
      exec (.sqrt .w64) s = .next (doneWith s 0x100000000 false false)) ∧
    (0xFFFFFFFE00000001 ≤ s.unit.curA.toNat → s.unit.curA.toNat ≤ 0xFFFFFFFFFFFFFBFF →
      exec (.sqrt .w64) s = .next (doneWith s 0xFFFFFFFF false false)) ∧
    (s.unit.curA = 0xFFFFFFFE00000000 ∨ s.unit.curA = 0xFFFFFFFDFFFFFFFF →
      exec (.sqrt .w64) s = .next (doneWith s 0xFFFFFFFF false false) ∧
      Nat.sqrt s.unit.curA.toNat = 0xFFFFFFFE)

/-- R204: Sqrt(m*m) = m whenever m*m fits in the operand, which the spec evaluated and did not prove. At and above
2^52 + 2^27 it rests on the rounding of log entry 12 (PRESUMED; G1 of 93_implementation_defined.md). -/
def Obligations.SqrtRoundTrip : Prop :=
  ∀ (w : Width) (s : State) (m : Nat), m * m < 2 ^ w.bits → low w s.unit.curA = m * m →
    exec (.sqrt w) s = .next (doneWith s (BitVec.ofNat 64 m) false false)

/-- R205: sqrtx.uW is the exact floor of the square root when HAS_SQRTX = 1, and an illegal command when it is 0. -/
def Obligations.SqrtxIsExactFloor : Prop :=
  (∀ w, decode (word4 w 0x00B 0x10B 0x20B 0x30B) = some (.sqrtx w)) ∧
    ∀ (w : Width) (s : State),
      (s.params.hasSqrtx = true →
        ∃ v : Nat, v * v ≤ low w s.unit.curA ∧ (∀ u : Nat, u * u ≤ low w s.unit.curA → u ≤ v) ∧
          exec (.sqrtx w) s = .next (doneWith s (BitVec.ofNat 64 v) false false)) ∧
      (s.params.hasSqrtx = false → exec (.sqrtx w) s = .next (doneWith s 0 false true))

/-! ### Every command -/

/-- R19, R33: the unit's turn completes every command, legal or not, and changes nothing but RES and STATUS. -/
def Obligations.EveryCommandCompletes : Prop :=
  ∀ s s' : State, unitsTurn s s' → ∃ res ovf ill, step s = .next (doneWith s' res ovf ill)

/-- R27, R224: only POWX and BINOM can set OVF, and then RES = 0 and ILL = 0; a command that reports ILL leaves RES = 0. -/
def Obligations.OverflowOnlyFromPowxAndBinom : Prop :=
  ∀ (i : Instr) (s : State), ∃ res ovf ill, exec i s = .next (doneWith s res ovf ill) ∧
    (ovf = true → (i = .powx ∨ i = .binom) ∧ res = 0 ∧ ill = false) ∧
    (ill = true → res = 0 ∧ ∃ w, i = .sqrtx w ∧ s.params.hasSqrtx = false)

/-- R34: RES and STATUS depend on the latched word and operands, the tables and the parameters, and on nothing else. -/
def Obligations.ResultDependsOnLatchAlone : Prop :=
  ∀ s t : State, s.unit.curCmd = t.unit.curCmd → s.unit.curA = t.unit.curA → s.unit.curB = t.unit.curB →
    s.unit.dbtab = t.unit.dbtab → s.unit.d10tab = t.unit.d10tab → s.params.hasSqrtx = t.params.hasSqrtx →
    ∃ res ovf ill, completeCommand s = .next (doneWith s res ovf ill) ∧
      completeCommand t = .next (doneWith t res ovf ill)

/-- R86: a command of width W reads the low W bits of the latched operands and ignores the others. -/
def Obligations.HighOperandBitsIgnored : Prop :=
  ∀ (i : Instr) (s : State) (a b : Word),
    low (widthOf i) a = low (widthOf i) s.unit.curA → low (widthOf i) b = low (widthOf i) s.unit.curB →
    ∃ res ovf ill, exec i s = .next (doneWith s res ovf ill) ∧
      exec i { s with unit := { s.unit with curA := a, curB := b } } =
        .next (doneWith { s with unit := { s.unit with curA := a, curB := b } } res ovf ill)

/-- R87: a result of width W stands zero-extended in RES. -/
def Obligations.ResultIsZeroExtended : Prop :=
  ∀ (i : Instr) (s : State), ∃ res ovf ill, exec i s = .next (doneWith s res ovf ill) ∧
    res.toNat < 2 ^ (widthOf i).bits

/-- R37: FLOG2 alone reads DBTAB, and FLOG10, CLOG10 and LEN alone read D10TAB. -/
def Obligations.CommandsReadTheirTables : Prop :=
  ∀ (i : Instr) (s : State), ∃ res ovf ill, exec i s = .next (doneWith s res ovf ill) ∧
    (∀ d, (∀ w, i ≠ .flog2 w) →
      exec i { s with unit := { s.unit with dbtab := d } } =
        .next (doneWith { s with unit := { s.unit with dbtab := d } } res ovf ill)) ∧
    (∀ d, (∀ w, i ≠ .flog10 w ∧ i ≠ .clog10 w ∧ i ≠ .lenU w ∧ i ≠ .lenS w) →
      exec i { s with unit := { s.unit with d10tab := d } } =
        .next (doneWith { s with unit := { s.unit with d10tab := d } } res ovf ill))

/-! ### The tables, reset and STATUS -/

/-- R35: for j in 0 to 63, DBTAB at the index of 2^j holds j. -/
def Obligations.DbtabHoldsBitPositions : Prop :=
  ∀ j : Fin 64,
    (dbtabContents[(2 ^ j.val * 0x07EDD5E59A4E28C2 % 2 ^ 64) / 2 ^ 58]?).map BitVec.toNat = some j.val

/-- R36: rows 1 to 64 of D10TAB hold the digit count of 2^b - 1 and the power of ten with that many digits, row 0 (1, 0). -/
def Obligations.DigitTableHoldsDigitCounts : Prop :=
  d10tabContents[0]? = some { digits := 1, threshold := 0 } ∧
    ∀ b : Nat, 1 ≤ b → b ≤ 64 →
      (d10tabContents[b]?).map (fun r => (r.digits.toNat, r.threshold.toNat)) =
        some (decimalDigits (2 ^ b - 1), 10 ^ (decimalDigits (2 ^ b - 1) - 1))

/-- R38: the registers after reset. Nothing is said of the latch. -/
def Obligations.ResetLeavesRegistersZero : Prop :=
  State.reset.unit.opa = 0 ∧ State.reset.unit.opb = 0 ∧ State.reset.unit.cmd = 0 ∧ State.reset.unit.res = 0 ∧
    State.reset.unit.status = { busy := false, done := false, ovf := false, ill := false } ∧
    State.reset.unit.status.toWord = 0 ∧
    State.reset.unit.dbtab = dbtabContents ∧ State.reset.unit.d10tab = d10tabContents

/-- R250, R251, R252: reset, also while a command is in flight or accesses stand at the port. Nothing is said of the
latch. That the host's program, line, names and trace stay as they are is log entry 4, and that the fault of the dropped
access is that of the oldest one is log entry 8: the model's choices. -/
def Obligations.ResetAbandonsAndDrops : Prop :=
  ∀ (s : State) (rest : List Event), s.host.script = .reset :: rest →
    ∃ t : State, step s = .next t ∧
      t.unit.opa = 0 ∧ t.unit.opb = 0 ∧ t.unit.cmd = 0 ∧ t.unit.res = 0 ∧
      t.unit.status = { busy := false, done := false, ovf := false, ill := false } ∧
      t.unit.dbtab = s.unit.dbtab ∧ t.unit.d10tab = s.unit.d10tab ∧ t.params = s.params ∧
      t.host = { s.host with
        script := rest
        port := []
        fault := match s.host.fault, s.host.port with
          | none, a :: _ => some (.droppedByReset a.off)
          | f, _ => f }

/-- R26: BUSY, DONE, OVF and ILL in bits 0 to 3 of STATUS, and every other bit 0. -/
def Obligations.StatusBitsStandInPlace : Prop :=
  ∀ (st : Status) (j : Nat),
    st.toWord.getLsbD j =
      if j = 0 then st.busy else if j = 1 then st.done else if j = 2 then st.ovf
      else if j = 3 then st.ill else false

/-- The invariant of Safety.lean (R24 to R28, R37, R224, R226, R256) holds at reset. -/
def Obligations.InvariantAtReset : Prop := State.reset.Inv

/-- Every step keeps it, from every state that has it. -/
def Obligations.InvariantKeptByStep : Prop :=
  ∀ s t : State, s.Inv → step s = .next t → t.Inv

/-- R37: no step writes a table, and none changes a parameter. -/
def Obligations.TablesNeverWritten : Prop :=
  ∀ s t : State, step s = .next t →
    t.unit.dbtab = s.unit.dbtab ∧ t.unit.d10tab = s.unit.d10tab ∧ t.params = s.params

/-! ### The register block and the port -/

/-- R32: a CMD write at the port's head. While BUSY = 1 it stays held; otherwise it loads CMD and the latch, sets BUSY,
clears DONE, OVF and ILL, and changes nothing else in the unit. -/
def Obligations.CmdWriteIssuesOrIsHeld : Prop :=
  ∀ (s s' : State) (v : Word) (rest : List BusAccess), portsTurn s s' →
    s.host.port = { kind := .write v, off := 0x10, size := 8 } :: rest →
    (s.unit.status.busy = true → step s = .next s') ∧
    (s.unit.status.busy = false →
      step s = .next { s' with
        unit := { s.unit with
          cmd := v
          curCmd := v
          curA := s.unit.opa
          curB := s.unit.opb
          status := { busy := true, done := false, ovf := false, ill := false } }
        host := { s'.host with port := rest, trace := .write 0x10 v :: s.host.trace } })

/-- R50, R54, R57: every other admitted write is performed whatever BUSY is. OPA and OPB take the value; RES, STATUS and
the reserved offsets ignore it. -/
def Obligations.OtherWritesActAtOnce : Prop :=
  ∀ (s s' : State) (off : Nat) (v : Word) (rest : List BusAccess), portsTurn s s' →
    off % 8 = 0 → off < 0x40 → off ≠ 0x10 →
    s.host.port = { kind := .write v, off := off, size := 8 } :: rest →
    step s = .next { s' with
      unit := if off = 0x00 then { s.unit with opa := v }
        else if off = 0x08 then { s.unit with opb := v } else s.unit
      host := { s'.host with port := rest, trace := .write off v :: s.host.trace } }

/-- R50, R55, R56, R258: an admitted read changes nothing in the unit and returns the register. A RES read while BUSY = 1
stays held; no other read is. -/
def Obligations.ReadsReturnRegisters : Prop :=
  ∀ (s s' : State) (off : Nat) (dst : Option Name) (rest : List BusAccess), portsTurn s s' →
    off % 8 = 0 → off < 0x40 → s.host.port = { kind := .read dst, off := off, size := 8 } :: rest →
    (off = 0x18 ∧ s.unit.status.busy = true → step s = .next s') ∧
    (¬(off = 0x18 ∧ s.unit.status.busy = true) →
      step s = .next { s' with
        host := { s'.host with
          port := rest
          trace := .read off (registerAt s.unit off) :: s.host.trace
          names := match dst with
            | some n => bindName s.host.names n (registerAt s.unit off)
            | none => s.host.names } })

/-- R52, R222: an access of another size, misaligned or outside the block is refused, whatever BUSY is: the unit does not
change, no data returns, and the host is in a fault. -/
def Obligations.RefusedAccessFaultsHost : Prop :=
  ∀ (s s' : State) (a : BusAccess) (rest : List BusAccess), portsTurn s s' →
    (a.size ≠ 8 ∨ a.off % 8 ≠ 0 ∨ 0x40 ≤ a.off) → s.host.port = a :: rest →
    step s = .next { s' with
      host := { s'.host with port := rest, fault := some (.busError a.off) } }

/-- R222 says that the host's fault is never cleared and leaves to the host what it does next. That a host in a fault makes
no further move, and that the machine answers the fault at the port's, the host's and an access's turn, is log entry 9
(DEDUCED), the model's choice; the last clause speaks of the fixed order of log entry 5. -/
def Obligations.FaultedHostStops : Prop :=
  ∀ (s : State) (f : Fault), s.host.fault = some f →
    (∀ (e : Event) (rest : List Event), s.host.script = e :: rest →
      (e = .port ∨ e = .host ∨ ∃ a, e = .issue a) → step s = .fault f) ∧
    (s.host.script = [] → s.unit.status.busy = false → step s = .fault f)

/-- R222: the host's fault is never cleared, by no turn and no reset. -/
def Obligations.HostFaultNeverCleared : Prop :=
  ∀ (s t : State) (f : Fault), s.host.fault = some f → step s = .next t → t.host.fault = some f

/-- R31, R257, R259: while a command is in flight, no step but its completion and a reset changes CMD, RES, STATUS or
the latch. -/
def Obligations.CommandInFlightUndisturbed : Prop :=
  ∀ s t : State, s.unit.status.busy = true → step s = .next t →
    (∃ s', unitsTurn s s') ∨ (∃ rest, s.host.script = .reset :: rest) ∨
      t.unit = { s.unit with opa := t.unit.opa, opb := t.unit.opb }

/-- R60, R258: a RES read at the port's head that waits for the command in flight, with a name or without one, returns the
value its completion wrote, and a name is bound to it.

The first two clauses are about every order of turns laid down in which the unit's turn comes (after turns that are
neither the unit's nor a reset) and then the port's (after turns that are neither the port's nor a reset). If the host's
own turns in between run no line of a program, because the host waits or its program has ended, both steps are reached
and the whole state is given; if they run lines, the read still returns the completion's value where the steps answer
next states. The third clause is about turns that run out before the unit's has come: there the fixed order of log entry 5,
the model's choice, completes the command and then performs the read. -/
def Obligations.HeldReadReturnsResult : Prop :=
  ∀ (s : State) (dst : Option Name) (rest : List BusAccess), s.host.fault = none →
    s.unit.status.busy = true → s.host.port = { kind := .read dst, off := 0x18, size := 8 } :: rest →
    ∃ c : State, completeCommand s = .next c ∧
      (∀ before between after : List Event,
        s.host.script = before ++ .unit :: (between ++ .port :: after) →
        (∀ e ∈ before, e ≠ .unit ∧ e ≠ .reset) → (∀ e ∈ between, e ≠ .port ∧ e ≠ .reset) →
        ((.host ∈ before ++ between → namedReadAtPort s ∨ s.host.program.length ≤ s.host.pc) →
          core.run (before.length + between.length + 2) s =
            .next (afterHeldRead s c.unit c.unit.res dst rest (issuedBy before ++ issuedBy between) after)) ∧
        ∀ t : State, core.run (before.length + between.length + 2) s = .next t →
          t.unit = c.unit ∧ t.host.trace = .read 0x18 c.unit.res :: s.host.trace ∧
          (∃ more, t.host.port = rest ++ more) ∧ ∀ n, dst = some n → lookupName t.host.names n = some c.unit.res) ∧
      ∀ before : List Event, s.host.script = before → (∀ e ∈ before, e ≠ .unit ∧ e ≠ .reset) →
        (.host ∈ before → namedReadAtPort s ∨ s.host.program.length ≤ s.host.pc) →
        core.run (before.length + 2) s =
          .next (afterHeldRead s c.unit c.unit.res dst rest (issuedBy before) [])

/-- R264: whatever turns are laid down, if they hold no reset and the host keeps to admitted accesses, the command in
flight completes within one step more than there are turns. The one step more is the unit's turn in the fixed order of log
entry 5, the model's choice. -/
def Obligations.BusyUnitCompletes : Prop :=
  ∀ s : State, s.SoundHost → s.unit.status.busy = true →
    ∃ (k : Nat) (t : State), k ≤ s.host.script.length + 1 ∧ core.run k s = .next t ∧
      t.unit.status.busy = false ∧ t.unit.status.done = true

/-- R220: with a sound host, be its program's names and labels bound and its accesses admitted, the machine never stops:
every step answers a next state, and the host stays such a one. -/
def Obligations.SoundHostNeverStops : Prop :=
  ∀ s : State, s.SoundHost → ∃ t : State, step s = .next t ∧ t.SoundHost

/-- R60: an access stands behind those that reached the port before it. R234 says that every register of the unit keeps its
value while idle. That with no turn laid down, an idle unit and host and an empty port nothing moves, so that the whole
state stays, host side and all, is the fixed order of log entry 5 (DESIGN CHOICE) and log entry 7 (an idle machine runs
nothing until accesses come from outside): the model's choices. -/
def Obligations.PortKeepsArrivalOrder : Prop :=
  (∀ (s : State) (a : BusAccess) (rest : List Event), s.host.fault = none →
    s.host.script = .issue a :: rest →
    step s = .next { s with host := { s.host with script := rest, port := s.host.port ++ [a] } }) ∧
    ∀ s : State, s.host.script = [] → s.host.port = [] → s.host.fault = none →
      s.host.program.length ≤ s.host.pc → s.unit.status.busy = false → step s = .next s

/-- R53: lane j of a bus word, at host address UNIT_BASE + off + j, carries bits 8j+7 to 8j, and UNIT_BASE is a multiple
of 0x40 (R9). -/
def Obligations.BusLanesLittleEndian : Prop :=
  (∀ (v : Word) (j k : Nat), j < 8 → k < 8 → (byteLane v j).getLsbD k = v.getLsbD (8 * j + k)) ∧
    (∀ v : Word, wordOfLanes ((List.range 8).map (byteLane v)) = v) ∧
    ∀ (p : Params) (kind : AccessKind) (off j : Nat), p.unitBase % 0x40 = 0 ∧
      laneAddress p off j = p.unitBase + off + j ∧
      accessAt p kind (laneAddress p off 0) 8 = some { kind := kind, off := off, size := 8 }

/-! ### The host program and the assembler -/

/-- R94: what each line of a host program does: an access at the port's tail, or the host's own control and arithmetic.
That the host goes on at once behind an access but waits while a read that binds a name stands at the port, that a label
is its first line, that the host makes no move behind the last line, and that a name that is not bound and a label that is
not there are refused, is log entry 13: the model's choices. With no turn laid down the host's turn comes in the fixed
order of log entry 5. -/
def Obligations.HostLinesActAsSpelled : Prop :=
  ∀ s s' : State, hostsTurn s s' →
    (namedReadAtPort s → step s = .next s') ∧
    (¬namedReadAtPort s →
      (s.host.program.length ≤ s.host.pc → step s = .next s') ∧
      (∀ r v, s.host.program[s.host.pc]? = some (.wr r (.imm v)) →
        step s = .next { s' with host := { s'.host with
          pc := s.host.pc + 1
          port := s.host.port ++ [{ kind := .write v, off := r.offset, size := 8 }] } }) ∧
      (∀ r n, s.host.program[s.host.pc]? = some (.wr r (.name n)) →
        (∀ v, lookupName s.host.names n = some v →
          step s = .next { s' with host := { s'.host with
            pc := s.host.pc + 1
            port := s.host.port ++ [{ kind := .write v, off := r.offset, size := 8 }] } }) ∧
        (lookupName s.host.names n = none → step s = .refused (.unboundName n))) ∧
      (∀ r n, s.host.program[s.host.pc]? = some (.rd r n) →
        step s = .next { s' with host := { s'.host with
          pc := s.host.pc + 1
          port := s.host.port ++ [{ kind := .read (some n), off := r.offset, size := 8 }] } }) ∧
      (∀ n m x, s.host.program[s.host.pc]? = some (.andi n m x) →
        (∀ v, lookupName s.host.names m = some v →
          step s = .next { s' with host := { s'.host with
            pc := s.host.pc + 1, names := bindName s.host.names n (v &&& x) } }) ∧
        (lookupName s.host.names m = none → step s = .refused (.unboundName m))) ∧
      (∀ n m x, s.host.program[s.host.pc]? = some (.addi n m x) →
        (∀ v, lookupName s.host.names m = some v →
          step s = .next { s' with host := { s'.host with
            pc := s.host.pc + 1, names := bindName s.host.names n (v + x) } }) ∧
        (lookupName s.host.names m = none → step s = .refused (.unboundName m))) ∧
      (∀ n x, s.host.program[s.host.pc]? = some (.set n x) →
        step s = .next { s' with host := { s'.host with
          pc := s.host.pc + 1, names := bindName s.host.names n x } }) ∧
      (∀ l, s.host.program[s.host.pc]? = some (.label l) →
        step s = .next { s' with host := { s'.host with pc := s.host.pc + 1 } }) ∧
      (∀ n l, s.host.program[s.host.pc]? = some (.beqz n l) →
        (∀ v, lookupName s.host.names n = some v →
          (v ≠ 0 → step s = .next { s' with host := { s'.host with pc := s.host.pc + 1 } }) ∧
          (v = 0 → branchesTo s s' l)) ∧
        (lookupName s.host.names n = none → step s = .refused (.unboundName n))) ∧
      (∀ n l, s.host.program[s.host.pc]? = some (.bnez n l) →
        (∀ v, lookupName s.host.names n = some v →
          (v = 0 → step s = .next { s' with host := { s'.host with pc := s.host.pc + 1 } }) ∧
          (v ≠ 0 → branchesTo s s' l)) ∧
        (lookupName s.host.names n = none → step s = .refused (.unboundName n))) ∧
      ∀ l, s.host.program[s.host.pc]? = some (.jmp l) → branchesTo s s' l)

/-- R93, R97: the assembler gives a spelling the word of the instruction it names, and refuses every spelling that R89
makes illegal. It also refuses `flog10p1` with `s`, which R89 does not make illegal (0x409 is len.s8): that is log entry
17 (DEDUCED), the model's choice. -/
def Obligations.AssemblerSpellsInstructions : Prop :=
  ∀ (p : Params) (m : Mnemonic) (signed : Bool) (w : Width),
    assemble p { mnemonic := m, signed := signed, width := .bits w } =
      ((spelled m signed w).filter (fun i => i.wellFormed p)).map encode ∧
    assemble p { mnemonic := m, signed := signed, width := .native } =
      assemble p { mnemonic := m, signed := signed, width := .bits (if p.native = .n32 then .w32 else .w64) }

/-- R95, R96: the two pseudo-instructions expand to the lines the rules print. `call` leaves out `wr OPB` where b is left
out of a one-operand command, and refuses a command of two operands without b: log entry 17, the model's reading. -/
def Obligations.PseudoInstructionsExpand : Prop :=
  (∀ (p : Params) (sp : Spelling) (a : HostValue) (res st : Name),
    (assemble p sp = none → ∀ b, callLines p sp a b res st = none) ∧
    ∀ c, assemble p sp = some c →
      (∀ b, callLines p sp a (some b) res st =
        some [.wr .opa a, .wr .opb b, .wr .cmd (.imm c), .rd .res res, .rd .status st]) ∧
      (sp.mnemonic ≠ .pow ∧ sp.mnemonic ≠ .powx ∧ sp.mnemonic ≠ .binom →
        callLines p sp a none res st =
          some [.wr .opa a, .wr .cmd (.imm c), .rd .res res, .rd .status st]) ∧
      (sp.mnemonic = .pow ∨ sp.mnemonic = .powx ∨ sp.mnemonic = .binom →
        callLines p sp a none res st = none)) ∧
    ∀ loop t st : Name,
      pollLines loop t st = [.label loop, .rd .status st, .andi t st 1, .bnez t loop]
end

