-- ==== Sys2Proof/Laws/State.lean ====
section
/-! SUPPORT. One lemma a field a state update, true by rfl, so that no later proof unfolds a record update. -/

namespace Sys2Proof.Machine

/-! ### UnitState.issue -/

@[simp] theorem UnitState.issue_opa (u : UnitState) (v : Word) : (u.issue v).opa = u.opa := rfl
@[simp] theorem UnitState.issue_opb (u : UnitState) (v : Word) : (u.issue v).opb = u.opb := rfl
@[simp] theorem UnitState.issue_cmd (u : UnitState) (v : Word) : (u.issue v).cmd = v := rfl
@[simp] theorem UnitState.issue_res (u : UnitState) (v : Word) : (u.issue v).res = u.res := rfl
@[simp] theorem UnitState.issue_status (u : UnitState) (v : Word) : (u.issue v).status = Status.issued := rfl
@[simp] theorem UnitState.issue_curCmd (u : UnitState) (v : Word) : (u.issue v).curCmd = v := rfl
@[simp] theorem UnitState.issue_curA (u : UnitState) (v : Word) : (u.issue v).curA = u.opa := rfl
@[simp] theorem UnitState.issue_curB (u : UnitState) (v : Word) : (u.issue v).curB = u.opb := rfl
@[simp] theorem UnitState.issue_dbtab (u : UnitState) (v : Word) : (u.issue v).dbtab = u.dbtab := rfl
@[simp] theorem UnitState.issue_d10tab (u : UnitState) (v : Word) : (u.issue v).d10tab = u.d10tab := rfl

/-! ### State.complete -/

@[simp] theorem State.complete_opa (s : State) (v : Word) (ovf ill : Bool) :
    (s.complete v ovf ill).unit.opa = s.unit.opa := rfl
@[simp] theorem State.complete_opb (s : State) (v : Word) (ovf ill : Bool) :
    (s.complete v ovf ill).unit.opb = s.unit.opb := rfl
@[simp] theorem State.complete_cmd (s : State) (v : Word) (ovf ill : Bool) :
    (s.complete v ovf ill).unit.cmd = s.unit.cmd := rfl
@[simp] theorem State.complete_res (s : State) (v : Word) (ovf ill : Bool) :
    (s.complete v ovf ill).unit.res = v := rfl
@[simp] theorem State.complete_status (s : State) (v : Word) (ovf ill : Bool) :
    (s.complete v ovf ill).unit.status = Status.completed ovf ill := rfl
@[simp] theorem State.complete_curCmd (s : State) (v : Word) (ovf ill : Bool) :
    (s.complete v ovf ill).unit.curCmd = s.unit.curCmd := rfl
@[simp] theorem State.complete_curA (s : State) (v : Word) (ovf ill : Bool) :
    (s.complete v ovf ill).unit.curA = s.unit.curA := rfl
@[simp] theorem State.complete_curB (s : State) (v : Word) (ovf ill : Bool) :
    (s.complete v ovf ill).unit.curB = s.unit.curB := rfl
@[simp] theorem State.complete_dbtab (s : State) (v : Word) (ovf ill : Bool) :
    (s.complete v ovf ill).unit.dbtab = s.unit.dbtab := rfl
@[simp] theorem State.complete_d10tab (s : State) (v : Word) (ovf ill : Bool) :
    (s.complete v ovf ill).unit.d10tab = s.unit.d10tab := rfl
@[simp] theorem State.complete_host (s : State) (v : Word) (ovf ill : Bool) :
    (s.complete v ovf ill).host = s.host := rfl
@[simp] theorem State.complete_params (s : State) (v : Word) (ovf ill : Bool) :
    (s.complete v ovf ill).params = s.params := rfl

/-! ### Status -/

@[simp] theorem Status.issued_busy : Status.issued.busy = true := rfl
@[simp] theorem Status.issued_done : Status.issued.done = false := rfl
@[simp] theorem Status.issued_ovf : Status.issued.ovf = false := rfl
@[simp] theorem Status.issued_ill : Status.issued.ill = false := rfl
@[simp] theorem Status.completed_busy (ovf ill : Bool) : (Status.completed ovf ill).busy = false := rfl
@[simp] theorem Status.completed_done (ovf ill : Bool) : (Status.completed ovf ill).done = true := rfl
@[simp] theorem Status.completed_ovf (ovf ill : Bool) : (Status.completed ovf ill).ovf = ovf := rfl
@[simp] theorem Status.completed_ill (ovf ill : Bool) : (Status.completed ovf ill).ill = ill := rfl

/-! ### State.enqueue -/

@[simp] theorem State.enqueue_unit (s : State) (a : BusAccess) : (s.enqueue a).unit = s.unit := rfl
@[simp] theorem State.enqueue_params (s : State) (a : BusAccess) : (s.enqueue a).params = s.params := rfl
@[simp] theorem State.enqueue_script (s : State) (a : BusAccess) : (s.enqueue a).host.script = s.host.script := rfl
@[simp] theorem State.enqueue_port (s : State) (a : BusAccess) : (s.enqueue a).host.port = s.host.port ++ [a] := rfl
@[simp] theorem State.enqueue_trace (s : State) (a : BusAccess) : (s.enqueue a).host.trace = s.host.trace := rfl
@[simp] theorem State.enqueue_fault (s : State) (a : BusAccess) : (s.enqueue a).host.fault = s.host.fault := rfl
@[simp] theorem State.enqueue_program (s : State) (a : BusAccess) : (s.enqueue a).host.program = s.host.program := rfl
@[simp] theorem State.enqueue_pc (s : State) (a : BusAccess) : (s.enqueue a).host.pc = s.host.pc := rfl
@[simp] theorem State.enqueue_names (s : State) (a : BusAccess) : (s.enqueue a).host.names = s.host.names := rfl

/-! ### State.dequeue -/

@[simp] theorem State.dequeue_unit (s : State) : (s.dequeue).unit = s.unit := rfl
@[simp] theorem State.dequeue_params (s : State) : (s.dequeue).params = s.params := rfl
@[simp] theorem State.dequeue_script (s : State) : (s.dequeue).host.script = s.host.script := rfl
@[simp] theorem State.dequeue_port (s : State) : (s.dequeue).host.port = s.host.port.tail := rfl
@[simp] theorem State.dequeue_trace (s : State) : (s.dequeue).host.trace = s.host.trace := rfl
@[simp] theorem State.dequeue_fault (s : State) : (s.dequeue).host.fault = s.host.fault := rfl
@[simp] theorem State.dequeue_program (s : State) : (s.dequeue).host.program = s.host.program := rfl
@[simp] theorem State.dequeue_pc (s : State) : (s.dequeue).host.pc = s.host.pc := rfl
@[simp] theorem State.dequeue_names (s : State) : (s.dequeue).host.names = s.host.names := rfl

/-! ### State.raise -/

@[simp] theorem State.raise_unit (s : State) (f : Fault) : (s.raise f).unit = s.unit := rfl
@[simp] theorem State.raise_params (s : State) (f : Fault) : (s.raise f).params = s.params := rfl
@[simp] theorem State.raise_script (s : State) (f : Fault) : (s.raise f).host.script = s.host.script := rfl
@[simp] theorem State.raise_port (s : State) (f : Fault) : (s.raise f).host.port = s.host.port := rfl
@[simp] theorem State.raise_trace (s : State) (f : Fault) : (s.raise f).host.trace = s.host.trace := rfl
@[simp] theorem State.raise_fault (s : State) (f : Fault) : (s.raise f).host.fault = s.host.fault.or (some f) := rfl
@[simp] theorem State.raise_program (s : State) (f : Fault) : (s.raise f).host.program = s.host.program := rfl
@[simp] theorem State.raise_pc (s : State) (f : Fault) : (s.raise f).host.pc = s.host.pc := rfl
@[simp] theorem State.raise_names (s : State) (f : Fault) : (s.raise f).host.names = s.host.names := rfl

/-! ### State.nextLine -/

@[simp] theorem State.nextLine_unit (s : State) : (s.nextLine).unit = s.unit := rfl
@[simp] theorem State.nextLine_params (s : State) : (s.nextLine).params = s.params := rfl
@[simp] theorem State.nextLine_script (s : State) : (s.nextLine).host.script = s.host.script := rfl
@[simp] theorem State.nextLine_port (s : State) : (s.nextLine).host.port = s.host.port := rfl
@[simp] theorem State.nextLine_trace (s : State) : (s.nextLine).host.trace = s.host.trace := rfl
@[simp] theorem State.nextLine_fault (s : State) : (s.nextLine).host.fault = s.host.fault := rfl
@[simp] theorem State.nextLine_program (s : State) : (s.nextLine).host.program = s.host.program := rfl
@[simp] theorem State.nextLine_pc (s : State) : (s.nextLine).host.pc = s.host.pc + 1 := rfl
@[simp] theorem State.nextLine_names (s : State) : (s.nextLine).host.names = s.host.names := rfl

/-! ### State.bind -/

@[simp] theorem State.bind_unit (s : State) (n : Name) (v : Word) : (s.bind n v).unit = s.unit := rfl
@[simp] theorem State.bind_params (s : State) (n : Name) (v : Word) : (s.bind n v).params = s.params := rfl
@[simp] theorem State.bind_script (s : State) (n : Name) (v : Word) : (s.bind n v).host.script = s.host.script := rfl
@[simp] theorem State.bind_port (s : State) (n : Name) (v : Word) : (s.bind n v).host.port = s.host.port := rfl
@[simp] theorem State.bind_trace (s : State) (n : Name) (v : Word) : (s.bind n v).host.trace = s.host.trace := rfl
@[simp] theorem State.bind_fault (s : State) (n : Name) (v : Word) : (s.bind n v).host.fault = s.host.fault := rfl
@[simp] theorem State.bind_program (s : State) (n : Name) (v : Word) : (s.bind n v).host.program = s.host.program := rfl
@[simp] theorem State.bind_pc (s : State) (n : Name) (v : Word) : (s.bind n v).host.pc = s.host.pc := rfl
@[simp] theorem State.bind_names (s : State) (n : Name) (v : Word) : (s.bind n v).host.names = bindName s.host.names n v := rfl

end Sys2Proof.Machine
end

