-- ==== Sys2Proof/Laws/Ops.lean ====
section
/-! SUPPORT. For each shared operation, once, everything it can do. -/

namespace Sys2Proof.Machine

/-! ### Commands -/

/-- Every meaning is a completion: it writes RES and STATUS and nothing else (R33). -/
theorem exec_complete (i : Instr) (s : State) :
    ∃ v ovf ill, exec i s = .next (s.complete v ovf ill) := by
  cases i
  case sqrtx w =>
    simp only [exec, execSqrtx]
    split
    · exact ⟨_, _, _, rfl⟩
    · exact ⟨_, _, _, rfl⟩
  all_goals exact ⟨_, _, _, rfl⟩

/-- Completion, of a legal word or of an illegal one, writes RES and STATUS and nothing else (R33, R90). -/
theorem completeCommand_complete (s : State) :
    ∃ v ovf ill, completeCommand s = .next (s.complete v ovf ill) := by
  unfold completeCommand
  split
  · exact exec_complete _ s
  · exact ⟨_, _, _, rfl⟩

/-- A meaning computes the same result whatever the host side holds (R34), and leaves the host side as it is. -/
theorem exec_host (i : Instr) (s : State) :
    ∃ v ovf ill, exec i s = .next (s.complete v ovf ill) ∧
      ∀ h, exec i { s with host := h } = .next (({ s with host := h } : State).complete v ovf ill) := by
  cases i
  case sqrtx w =>
    cases hx : s.params.hasSqrtx <;> simp only [exec, execSqrtx, hx] <;> exact ⟨_, _, _, rfl, fun _ => rfl⟩
  all_goals exact ⟨_, _, _, rfl, fun _ => rfl⟩

/-- So does completion, also of an illegal word. -/
theorem completeCommand_host (s : State) :
    ∃ v ovf ill, completeCommand s = .next (s.complete v ovf ill) ∧
      ∀ h, completeCommand { s with host := h } = .next (({ s with host := h } : State).complete v ovf ill) := by
  cases hd : decode s.unit.curCmd with
  | none =>
    exact ⟨0, false, true, by simp only [completeCommand, hd]; rfl, fun _ => by simp only [completeCommand, hd]; rfl⟩
  | some i =>
    obtain ⟨v, ovf, ill, h1, h2⟩ := exec_host i s
    exact ⟨v, ovf, ill, by simp only [completeCommand, hd]; exact h1,
      fun h => by simp only [completeCommand, hd]; exact h2 h⟩

/-- The unit's turn: a completion while BUSY = 1, nothing otherwise (R33). -/
theorem unitTurn_cases (s : State) :
    (s.unit.status.busy = true ∧ ∃ v ovf ill, unitTurn s = .next (s.complete v ovf ill)) ∨
      (s.unit.status.busy = false ∧ unitTurn s = .next s) := by
  unfold unitTurn
  cases h : s.unit.status.busy
  · exact .inr ⟨rfl, rfl⟩
  · exact .inl ⟨rfl, by simpa using completeCommand_complete s⟩

/-! ### The port -/

/-- A port write leaves the parameters and, of the host side, all but the trace. -/
theorem perform_write (s : State) (a : BusAccess) (v : Word) (h : a.kind = .write v) :
    s.perform a =
      { s with
        unit := s.unit.writeReg a.off v
        host := { s.host with trace := .write a.off v :: s.host.trace } } := by
  simp [State.perform, h]

/-- A port read leaves the unit as it is (R56). -/
theorem perform_read_unit (s : State) (a : BusAccess) (dst : Option Name) (h : a.kind = .read dst) :
    (s.perform a).unit = s.unit := by
  simp [State.perform, h]

@[simp] theorem perform_params (s : State) (a : BusAccess) : (s.perform a).params = s.params := by
  unfold State.perform; split <;> rfl

@[simp] theorem perform_fault (s : State) (a : BusAccess) : (s.perform a).host.fault = s.host.fault := by
  unfold State.perform; split <;> rfl

@[simp] theorem perform_port (s : State) (a : BusAccess) : (s.perform a).host.port = s.host.port := by
  unfold State.perform; split <;> rfl

@[simp] theorem perform_script (s : State) (a : BusAccess) : (s.perform a).host.script = s.host.script := by
  unfold State.perform; split <;> rfl

@[simp] theorem perform_program (s : State) (a : BusAccess) : (s.perform a).host.program = s.host.program := by
  unfold State.perform; split <;> rfl

/-- The unit after an access: as it was, or as the write leaves it. -/
theorem perform_unit (s : State) (a : BusAccess) :
    (s.perform a).unit = s.unit ∨ ∃ v, a.kind = .write v ∧ (s.perform a).unit = s.unit.writeReg a.off v := by
  unfold State.perform
  split
  · exact .inl rfl
  · rename_i v h
    exact .inr ⟨v, h, rfl⟩

/-- What a write can do to the unit (R50, R54). -/
theorem writeReg_cases (u : UnitState) (off : Nat) (v : Word) :
    (off = 0x00 ∧ u.writeReg off v = { u with opa := v }) ∨
      (off = 0x08 ∧ u.writeReg off v = { u with opb := v }) ∨
      (off = 0x10 ∧ u.writeReg off v = u.issue v) ∨
      (off ≠ 0x00 ∧ off ≠ 0x08 ∧ off ≠ 0x10 ∧ u.writeReg off v = u) := by
  unfold UnitState.writeReg
  split
  · exact .inl ⟨rfl, rfl⟩
  · exact .inr (.inl ⟨rfl, rfl⟩)
  · exact .inr (.inr (.inl ⟨rfl, rfl⟩))
  · rename_i h0 h8 h10
    exact .inr (.inr (.inr ⟨h0, h8, h10, rfl⟩))

/-- The port's turn: nothing, a refusal, a hold or one access performed. -/
theorem portTurn_cases (s : State) :
    (s.host.port = [] ∧ portTurn s = .next s) ∨
      (∃ a rest, s.host.port = a :: rest ∧ a.admitted = false ∧
        portTurn s = .next (s.dequeue.raise (.busError a.off))) ∨
      (∃ a rest, s.host.port = a :: rest ∧ a.admitted = true ∧ a.held s.unit.status = true ∧
        portTurn s = .next s) ∨
      (∃ a rest, s.host.port = a :: rest ∧ a.admitted = true ∧ a.held s.unit.status = false ∧
        portTurn s = .next (s.dequeue.perform a)) := by
  unfold portTurn
  split
  · exact .inl ⟨by assumption, rfl⟩
  · rename_i a rest hp
    cases ha : a.admitted
    · exact .inr (.inl ⟨a, rest, hp, ha, by simp⟩)
    · cases hh : a.held s.unit.status
      · exact .inr (.inr (.inr ⟨a, rest, hp, ha, hh, by simp⟩))
      · exact .inr (.inr (.inl ⟨a, rest, hp, ha, hh, by simp⟩))

/-! ### The host -/

/-- What the host's own turn can touch: the port's tail, its line number and its names. -/
def HostOnly (s t : State) : Prop :=
  t.unit = s.unit ∧ t.params = s.params ∧ t.host.script = s.host.script ∧ t.host.fault = s.host.fault ∧
    t.host.trace = s.host.trace ∧ t.host.program = s.host.program ∧
    (∃ l, t.host.port = s.host.port ++ l) ∧
    (t.host.names = s.host.names ∨ ∃ n v, t.host.names = bindName s.host.names n v)

theorem HostOnly.refl (s : State) : HostOnly s s :=
  ⟨rfl, rfl, rfl, rfl, rfl, rfl, ⟨[], by simp⟩, .inl rfl⟩

theorem HostOnly.nextLine (s : State) : HostOnly s s.nextLine :=
  ⟨rfl, rfl, rfl, rfl, rfl, rfl, ⟨[], by simp⟩, .inl rfl⟩

theorem HostOnly.enqueue (s : State) (a : BusAccess) : HostOnly s (s.enqueue a).nextLine :=
  ⟨rfl, rfl, rfl, rfl, rfl, rfl, ⟨[a], rfl⟩, .inl rfl⟩

theorem HostOnly.bind (s : State) (n : Name) (v : Word) : HostOnly s (s.bind n v).nextLine :=
  ⟨rfl, rfl, rfl, rfl, rfl, rfl, ⟨[], by simp⟩, .inr ⟨n, v, rfl⟩⟩

theorem gotoLabel_next {s t : State} {l : Name} (h : s.gotoLabel l = .next t) : HostOnly s t := by
  unfold State.gotoLabel at h
  split at h
  · injection h with h
    subst h
    exact ⟨rfl, rfl, rfl, rfl, rfl, rfl, ⟨[], by simp⟩, .inl rfl⟩
  · cases h

theorem withName_next {s t : State} {n : Name} {k : Word → Move} (h : s.withName n k = .next t) :
    ∃ v, lookupName s.host.names n = some v ∧ k v = .next t := by
  unfold State.withName at h
  split at h
  · exact ⟨_, by assumption, h⟩
  · cases h

theorem withValue_next {s t : State} {v : HostValue} {k : Word → Move} (h : s.withValue v k = .next t) :
    ∃ x, k x = .next t := by
  unfold State.withValue at h
  split at h
  · exact ⟨_, h⟩
  · obtain ⟨x, -, hx⟩ := withName_next h
    exact ⟨x, hx⟩

theorem runLine_next {s t : State} {line : HostLine} (h : s.runLine line = .next t) : HostOnly s t := by
  unfold State.runLine at h
  split at h
  · obtain ⟨x, hx⟩ := withValue_next h
    cases hx; exact .enqueue s _
  · cases h; exact .enqueue s _
  · cases h; exact .nextLine s
  · obtain ⟨x, -, hx⟩ := withName_next h
    split at hx
    · exact gotoLabel_next hx
    · cases hx; exact .nextLine s
  · obtain ⟨x, -, hx⟩ := withName_next h
    split at hx
    · cases hx; exact .nextLine s
    · exact gotoLabel_next hx
  · exact gotoLabel_next h
  · obtain ⟨x, -, hx⟩ := withName_next h
    cases hx; exact .bind s _ _
  · obtain ⟨x, -, hx⟩ := withName_next h
    cases hx; exact .bind s _ _
  · cases h; exact .bind s _ _

/-- The host waits exactly while a read that binds a name stands at the port. -/
theorem awaitsRead_iff (h : HostState) :
    h.awaitsRead = true ↔ ∃ a ∈ h.port, ∃ n, a.kind = .read (some n) := by
  unfold HostState.awaitsRead
  rw [List.any_eq_true]
  constructor
  · rintro ⟨a, ha, h⟩
    refine ⟨a, ha, ?_⟩
    revert h
    rcases hk : a.kind with (_ | n) | v <;> simp
  · rintro ⟨a, ha, n, h⟩
    exact ⟨a, ha, by simp [h]⟩

/-- A host that waits, or whose program has ended, makes no move. -/
theorem hostTurn_quiet {s : State} (h : s.host.awaitsRead = true ∨ s.host.program.length ≤ s.host.pc) :
    hostTurn s = .next s := by
  unfold hostTurn
  split
  · rfl
  · rename_i hw
    rcases h with h | h
    · exact absurd h hw
    · rw [List.getElem?_eq_none h]

/-- A host that does not wait runs the line it stands at. -/
theorem hostTurn_line {s : State} {line : HostLine} (hw : s.host.awaitsRead = false)
    (h : s.host.program[s.host.pc]? = some line) : hostTurn s = s.runLine line := by
  unfold hostTurn; simp [hw, h]

/-- A label is found at its first line. -/
theorem findLabel_eq_some {program : List HostLine} {l : Name} {k : Nat} (h : program[k]? = some (.label l))
    (first : ∀ j < k, program[j]? ≠ some (.label l)) : findLabel program l = some k := by
  unfold findLabel
  rw [List.findIdx?_eq_some_iff_getElem]
  obtain ⟨hk, h⟩ := List.getElem?_eq_some_iff.1 h
  refine ⟨hk, by simp [h], fun j hjk => ?_⟩
  have := first j hjk
  rw [List.getElem?_eq_getElem (by omega)] at this
  simpa using this

theorem findLabel_eq_none {program : List HostLine} {l : Name} (h : .label l ∉ program) :
    findLabel program l = none := by
  unfold findLabel
  rw [List.findIdx?_eq_none_iff]
  intro x hx
  simp only [decide_eq_false_iff_not]
  rintro rfl
  exact h hx

/-- Every access that a host program makes is admitted (R52). -/
theorem hostReg_admitted (r : HostReg) (k : AccessKind) :
    BusAccess.admitted { kind := k, off := r.offset, size := 8 } = true := by
  cases r <;> simp [BusAccess.admitted, HostReg.offset]

/-- The empty program is sound, and needs no name. -/
theorem SoundProgram.nil : SoundProgram [] (fun _ _ => False) :=
  ⟨by simp, by simp, by simp⟩

/-- The host's turn never touches the unit (R94). -/
theorem hostTurn_next {s t : State} (h : hostTurn s = .next t) : HostOnly s t := by
  unfold hostTurn at h
  split at h
  · cases h; exact .refl s
  · split at h
    · exact runLine_next h
    · cases h; exact .refl s

/-! ### Reset -/

/-- Reset, field by field of the unit (R250); the tables stay (R37). -/
theorem resetUnit_unit (s : State) :
    s.resetUnit.unit = { UnitState.reset with dbtab := s.unit.dbtab, d10tab := s.unit.d10tab } := by
  unfold State.resetUnit; split <;> rfl

@[simp] theorem resetUnit_params (s : State) : s.resetUnit.params = s.params := by
  unfold State.resetUnit; split <;> rfl

@[simp] theorem resetUnit_port (s : State) : s.resetUnit.host.port = [] := by
  unfold State.resetUnit; split <;> rfl

@[simp] theorem resetUnit_script (s : State) : s.resetUnit.host.script = s.host.script := by
  unfold State.resetUnit; split <;> rfl

@[simp] theorem resetUnit_names (s : State) : s.resetUnit.host.names = s.host.names := by
  unfold State.resetUnit; split <;> rfl

@[simp] theorem resetUnit_program (s : State) : s.resetUnit.host.program = s.host.program := by
  unfold State.resetUnit; split <;> rfl

@[simp] theorem resetUnit_pc (s : State) : s.resetUnit.host.pc = s.host.pc := by
  unfold State.resetUnit; split <;> rfl

@[simp] theorem resetUnit_trace (s : State) : s.resetUnit.host.trace = s.host.trace := by
  unfold State.resetUnit; split <;> rfl

/-! ### One turn -/

theorem hostMove_next {s t : State} {m : Move} (h : hostMove s m = .next t) :
    s.host.fault = none ∧ m = .next t := by
  unfold hostMove at h
  split at h
  · cases h
  · exact ⟨by assumption, h⟩

/-- The state a laid-down turn runs in. -/
def State.dropTurn (s : State) : State :=
  { s with host := { s.host with script := s.host.script.tail } }

/-- A step is a turn that was laid down, the turn of the fixed order, or no turn. -/
theorem step_cases (s : State) :
    (∃ e rest, s.host.script = e :: rest ∧ step s = runEvent e s.dropTurn) ∨
      (s.host.script = [] ∧ ∃ e, defaultEvent s = some e ∧ step s = runEvent e s) ∨
      (s.host.script = [] ∧ defaultEvent s = none ∧ step s = .next s) := by
  unfold step takeTurn
  split
  · rename_i e rest h
    exact .inl ⟨e, rest, h, by simp [State.dropTurn, h]⟩
  · rename_i h
    split
    · exact .inr (.inl ⟨h, _, by assumption, rfl⟩)
    · exact .inr (.inr ⟨h, by assumption, rfl⟩)

/-! ### Host names -/

theorem bindName_keys (l : List (Name × Word)) (n : Name) (v : Word) (x : Name × Word)
    (h : x ∈ bindName l n v) : x.1 = n ∨ x ∈ l := by
  induction l with
  | nil => simp [bindName] at h; exact .inl (by rw [h])
  | cons y rest ih =>
    obtain ⟨m, w⟩ := y
    simp only [bindName] at h
    split at h
    · rcases List.mem_cons.1 h with h | h
      · exact .inl (by rw [h])
      · exact .inr h
    · split at h
      · rcases List.mem_cons.1 h with h | h
        · exact .inl (by rw [h])
        · exact .inr (List.mem_cons_of_mem _ h)
      · rcases List.mem_cons.1 h with h | h
        · exact .inr (by rw [h]; exact List.mem_cons_self)
        · rcases ih h with h | h
          · exact .inl h
          · exact .inr (List.mem_cons_of_mem _ h)

/-- Binding a name keeps the canonical form. -/
theorem bindName_wf {l : List (Name × Word)} (n : Name) (v : Word) (h : namesWf l) :
    namesWf (bindName l n v) := by
  induction l with
  | nil => simp [bindName, namesWf]
  | cons y rest ih =>
    obtain ⟨m, w⟩ := y
    have hh := List.pairwise_cons.1 h
    simp only [bindName]
    split
    · rename_i hlt
      refine List.pairwise_cons.2 ⟨fun x hx => ?_, h⟩
      rcases List.mem_cons.1 hx with rfl | hx
      · exact hlt
      · exact Nat.lt_trans hlt (hh.1 x hx)
    · rename_i hlt
      split
      · rename_i heq
        exact List.pairwise_cons.2 ⟨fun x hx => heq ▸ hh.1 x hx, hh.2⟩
      · rename_i hne
        refine List.pairwise_cons.2 ⟨fun x hx => ?_, ih hh.2⟩
        rcases bindName_keys rest n v x hx with hx | hx
        · have : m < n := Nat.lt_of_le_of_ne (Nat.le_of_not_lt hlt) (Ne.symm hne)
          simpa [hx] using this
        · exact hh.1 x hx

/-- A name just bound reads as its value. -/
theorem lookupName_bindName (l : List (Name × Word)) (n : Name) (v : Word) :
    lookupName (bindName l n v) n = some v := by
  induction l with
  | nil => simp [bindName, lookupName]
  | cons y rest ih =>
    obtain ⟨m, w⟩ := y
    simp only [bindName]
    split
    · simp [lookupName]
    · split
      · simp [lookupName]
      · rename_i hne
        simp [lookupName, Ne.symm hne, ih]

/-- Binding a name leaves every other name as it was. -/
theorem lookupName_bindName_ne (l : List (Name × Word)) {n m : Name} (v : Word) (h : m ≠ n) :
    lookupName (bindName l n v) m = lookupName l m := by
  induction l with
  | nil => simp [bindName, lookupName, Ne.symm h]
  | cons y rest ih =>
    obtain ⟨k, w⟩ := y
    simp only [bindName]
    split
    · simp [lookupName, Ne.symm h]
    · split
      · rename_i hk; subst hk; simp [lookupName, Ne.symm h]
      · simp [lookupName, ih]

/-- A bound name stays bound. -/
theorem bindName_keeps {l : List (Name × Word)} {m : Name} (n : Name) (v : Word)
    (h : ∃ x, lookupName l m = some x) : ∃ x, lookupName (bindName l n v) m = some x := by
  by_cases hm : m = n
  · exact hm ▸ ⟨v, lookupName_bindName l m v⟩
  · rwa [lookupName_bindName_ne l v hm]

end Sys2Proof.Machine
end

