-- ==== Sys2Proof/Laws/PerInstr.lean ====
section
/-! SUPPORT. The statements made of every instruction, one lemma a constructor. -/

namespace Sys2Proof.Laws.RoundTrip

/-- The decoder reads an instruction back from its own command word (R81, R88). -/
def Statement (i : Instr) : Prop := decode (encode i) = some i

theorem abs (w : Width) : Statement (.abs w) := by cases w <;> rfl
theorem pow (w : Width) : Statement (.pow w) := by cases w <;> rfl
theorem powx : Statement .powx := rfl
theorem binom : Statement .binom := rfl
theorem flog2 (w : Width) : Statement (.flog2 w) := by cases w <;> rfl
theorem clog2 (w : Width) : Statement (.clog2 w) := by cases w <;> rfl
theorem flog10 (w : Width) : Statement (.flog10 w) := by cases w <;> rfl
theorem clog10 (w : Width) : Statement (.clog10 w) := by cases w <;> rfl
theorem lenU (w : Width) : Statement (.lenU w) := by cases w <;> rfl
theorem lenS (w : Width) : Statement (.lenS w) := by cases w <;> rfl
theorem sqrt (w : Width) : Statement (.sqrt w) := by cases w <;> rfl
theorem sqrtx (w : Width) : Statement (.sqrtx w) := by cases w <;> rfl

end Sys2Proof.Laws.RoundTrip
end

