-- ==== Sys2Proof/Tests/Slice0.lean ====
section
/-! SUPPORT. The model's own tests and the witnesses of its statements. Expected values come from spec/: the words of
30_encoding.md R91, the vectors of 95_test_vectors.md and the rules named beside each test. -/

namespace Sys2Proof.Tests

open Sys2Proof.Machine Sys2Proof.Spec

/-- A unit that runs the command word `c` on the operands `a` and `b`. -/
def running (c a b : Nat) : State :=
  { State.reset with
    unit := { UnitState.reset with
      cmd := BitVec.ofNat 64 c
      curCmd := BitVec.ofNat 64 c
      curA := BitVec.ofNat 64 a
      curB := BitVec.ofNat 64 b
      status := Status.issued } }

/-- RES and STATUS after a move. -/
def resultOf : Move → Option (Nat × Nat)
  | .next t => some (t.unit.res.toNat, t.unit.status.toWord.toNat)
  | _ => none

/-- A state with one access at the port and the turns given. -/
def atPort (s : State) (a : BusAccess) (script : List Event) : State :=
  { s with host := { s.host with port := [a], script := script } }

def cmdWrite (v : Nat) : BusAccess := { kind := .write (BitVec.ofNat 64 v), off := 0x10, size := 8 }
def resRead : BusAccess := { kind := .read none, off := 0x18, size := 8 }

/-! ### WellFormed -/

/-- An ill-formed term: SQRTX in a unit without it (R205). -/
theorem test_wellFormed_refuses_absent_sqrtx :
    (Instr.sqrtx .w8).wellFormed { Params.simulator with hasSqrtx := false } = false := by decide
theorem test_wellFormed_takes_present_sqrtx : (Instr.sqrtx .w8).wellFormed Params.simulator = true := by decide

/-! ### Decode: words written out from the fields of R81, OP [7:0], WID [9:8], SGN [10] -/

theorem test_decode_abs : decode 0b100_0000_0001 = some (.abs .w8) := by decide
theorem test_decode_abs64 : decode 0b111_0000_0001 = some (.abs .w64) := by decide
theorem test_decode_pow : decode 0b001_0000_0010 = some (.pow .w16) := by decide
theorem test_decode_powx : decode 0b011_0000_0011 = some .powx := by decide
theorem test_decode_binom : decode 0b011_0000_0100 = some .binom := by decide
theorem test_decode_flog2 : decode 0b010_0000_0101 = some (.flog2 .w32) := by decide
theorem test_decode_clog2 : decode 0b000_0000_0110 = some (.clog2 .w8) := by decide
theorem test_decode_flog10 : decode 0b001_0000_0111 = some (.flog10 .w16) := by decide
theorem test_decode_clog10 : decode 0b011_0000_1000 = some (.clog10 .w64) := by decide
theorem test_decode_lenU : decode 0b010_0000_1001 = some (.lenU .w32) := by decide
theorem test_decode_lenS : decode 0b101_0000_1001 = some (.lenS .w16) := by decide
theorem test_decode_sqrt : decode 0b000_0000_1010 = some (.sqrt .w8) := by decide
theorem test_decode_sqrtx : decode 0b011_0000_1011 = some (.sqrtx .w64) := by decide
theorem test_decode_refuses_reserved_bit : decode 0x805 = none ∧ decode 0x8000000000000305 = none := by decide
theorem test_decode_refuses_sgn : decode 0x402 = none ∧ decode 0x001 = none ∧ decode 0x405 = none := by decide
theorem test_decode_refuses_width : decode 0x203 = none ∧ decode 0x104 = none := by decide
theorem test_decode_refuses_opcode : decode 0x000 = none ∧ decode 0x00C = none ∧ decode 0x0FF = none := by decide
theorem test_table_word : decodeTableWord 64 0x401 = some (.abs .w8) := by decide
theorem test_legal_sqrtx : legal true 0x30B = true ∧ legal false 0x30B = false := by decide

/-! ### Commands: vectors of 95_test_vectors.md, part 2 -/

theorem test_abs_negative : resultOf (step (running 0x401 0x1234567890ABCDFB 0)) = some (0x05, 0x2) := by decide
theorem test_abs_minimum : resultOf (step (running 0x501 0x8000 0)) = some (0x8000, 0x2) := by decide
theorem test_pow_wraps : resultOf (step (running 0x002 3 0x106)) = some (0xD9, 0x2) := by decide
theorem test_pow_zero_zero : resultOf (step (running 0x302 0 0)) = some (1, 0x2) := by decide
theorem test_powx_unused_square : resultOf (step (running 0x303 2 0x20)) = some (0x100000000, 0x2) := by decide
theorem test_powx_overflow : resultOf (step (running 0x303 10 20)) = some (0, 0x6) := by decide
theorem test_binom_row67 : resultOf (step (running 0x304 67 34)) = some (0xC56EC13C4B95E372, 0x2) := by
  decide +kernel
theorem test_binom_row68 : resultOf (step (running 0x304 68 34)) = some (0, 0x6) := by decide +kernel
theorem test_flog2_top : resultOf (step (running 0x305 0xFFFFFFFFFFFFFFFF 0)) = some (63, 0x2) := by decide
theorem test_flog2_narrow : resultOf (step (running 0x105 0x100010101 0)) = some (8, 0x2) := by decide
theorem test_clog2_above_power : resultOf (step (running 0x106 0x8001 0)) = some (16, 0x2) := by decide
theorem test_clog2_power : resultOf (step (running 0x306 0x8000000000000000 0)) = some (63, 0x2) := by decide
theorem test_flog10_999 : resultOf (step (running 0x307 999 0)) = some (2, 0x2) := by decide
theorem test_flog10_1000 : resultOf (step (running 0x307 1000 0)) = some (3, 0x2) := by decide
theorem test_clog10_1000 : resultOf (step (running 0x308 1000 0)) = some (3, 0x2) := by decide
theorem test_clog10_1001 : resultOf (step (running 0x308 1001 0)) = some (4, 0x2) := by decide
theorem test_lenU_scenario : resultOf (step (running 0x309 0x838178ADFC68A64F 0)) = some (19, 0x2) := by decide
theorem test_lenU_zero : resultOf (step (running 0x009 0x100 0)) = some (1, 0x2) := by decide
theorem test_lenS_minimum : resultOf (step (running 0x709 0x8000000000000000 0)) = some (20, 0x2) := by decide
theorem test_lenS_narrow_minimum : resultOf (step (running 0x409 0x80 0)) = some (4, 0x2) := by decide
theorem test_sqrt_first_departure : resultOf (step (running 0x30A 0x10000008000000 0)) = some (0x4000001, 0x2) := by
  decide +kernel
theorem test_sqrt_top : resultOf (step (running 0x30A 0xFFFFFFFFFFFFFC00 0)) = some (0x100000000, 0x2) := by
  decide +kernel
theorem test_sqrtx_exact : resultOf (step (running 0x30B 0x10000008000000 0)) = some (0x4000000, 0x2) := by
  decide +kernel
theorem test_sqrtx_absent :
    resultOf (step { running 0x30B 17 0 with params := { Params.simulator with hasSqrtx := false } }) =
      some (0, 0xA) := by decide
/-- Part 3: the word 0x203 completes with RES = 0 and STATUS = 0xA. -/
theorem test_illegal_word : resultOf (step (running 0x203 5 5)) = some (0, 0xA) := by decide

/-! ### The port: bus vectors B6, B8, B10, B13 of 95_test_vectors.md -/

theorem test_narrow_read_refused :
    (BusAccess.admitted { kind := .read none, off := 0x18, size := 4 }) = false := by decide
theorem test_outside_write_refused :
    (BusAccess.admitted { kind := .write 0, off := 0x40, size := 8 }) = false := by decide
theorem test_cmd_write_shows_busy :
    resultOf (step (atPort State.reset (cmdWrite 0x30A) [])) = some (0, 0x1) := by decide
theorem test_cmd_write_held : (cmdWrite 0x305).held Status.issued = true := by decide
theorem test_fetch_word_runs :
    resultOf (step (State.reset.withFetchWord 64 0x304)) = some (1, 0x2) := by decide
theorem test_abs_s32_spelled :
    assemble Params.simulator { mnemonic := .abs, signed := true, width := .bits .w32 } = some 0x601 := by decide
theorem test_abs_u8_refused :
    assemble Params.simulator { mnemonic := .abs, signed := false, width := .bits .w8 } = none := by decide

/-! ### Witnesses: for each statement with hypotheses, concrete values that meet them -/

theorem witness_unitsTurn_default (c a b : Nat) : unitsTurn (running c a b) (running c a b) :=
  ⟨rfl, .inl ⟨rfl, rfl⟩⟩

theorem witness_unitsTurn_laid_down :
    ∃ s s' : State, unitsTurn s s' ∧ s.host.script = [.unit, .port] :=
  ⟨{ running 0x401 1 0 with host := { HostState.idle with script := [.unit, .port] } }, _,
    ⟨rfl, .inr ⟨[.port], rfl, rfl⟩⟩, rfl⟩

/-- IllegalWordIsReported: the ends of the ranges of each kind. -/
theorem witness_illegal_kinds :
    illegalWord true 0x000 ∧ illegalWord true 0x00C ∧ illegalWord true 0x0FF ∧ illegalWord false 0x30B ∧
      illegalWord true 0x001 ∧ illegalWord true 0x402 ∧ illegalWord true 0x203 ∧ illegalWord true 0x704 ∧
      illegalWord true 0x805 ∧ illegalWord true 0x8000000000000305 := by
  refine ⟨?_, ?_, ?_, ?_, ?_, ?_, ?_, ?_, ?_, ?_⟩ <;> decide

theorem witness_legal_kinds :
    ¬illegalWord true 0x401 ∧ ¬illegalWord true 0x30B ∧ ¬illegalWord false 0x303 ∧ ¬illegalWord false 0x709 := by
  refine ⟨?_, ?_, ?_, ?_⟩ <;> decide

theorem witness_StepRunsDecodedCommand :
    ∃ (s s' : State) (i : Instr), unitsTurn s s' ∧ decode s.unit.curCmd = some i :=
  ⟨running 0x401 1 0, _, .abs .w8, witness_unitsTurn_default 0x401 1 0, by decide⟩

theorem witness_AbsOfMinimumWraps (w : Width) :
    low w (BitVec.ofNat 64 (2 ^ (w.bits - 1))) = 2 ^ (w.bits - 1) := by cases w <;> decide

theorem witness_AbsReadsAsAbsoluteValue :
    low .w8 0x7F ≠ 2 ^ (Width.w8.bits - 1) ∧ low .w8 0x81 ≠ 2 ^ (Width.w8.bits - 1) := by decide

theorem witness_PowOfTwoShifts :
    low .w8 0x100 = 0 ∧ low .w8 0x102 = 2 ∧ low .w8 7 < Width.w8.bits ∧ Width.w8.bits ≤ low .w8 8 := by decide

theorem witness_BinomRowSixtySeven :
    (running 0x304 67 67).unit.curA.toNat ≤ 67 ∧
      (running 0x304 67 67).unit.curB.toNat ≤ (running 0x304 67 67).unit.curA.toNat ∧
      (running 0x304 67 33).unit.curA = 67 ∧ (running 0x304 67 33).unit.curB = 33 ∧
      (running 0x304 68 34).unit.curA = 68 ∧ (running 0x304 68 34).unit.curB = 34 := by decide

/-- FlogTwoIsFloor, ClogTwoIsCeiling, FlogTenIsFloor, ClogTenIsCeiling, LenCountsCharacters, LogTwoSandwich and
NarrowLogAgreesWithWide, with operands above 0. -/
theorem witness_logarithm_operand (w : Width) :
    ∃ s : State, s.unit.dbtab = dbtabContents ∧ s.unit.d10tab = d10tabContents ∧ low w s.unit.curA ≠ 0 :=
  ⟨running 0x305 1 0, rfl, rfl, by cases w <;> decide⟩

/-- LogOfZeroIsFree and the second clauses of the logarithm statements. -/
theorem witness_logarithm_of_zero (w : Width) :
    ∃ s : State, s.unit.dbtab = dbtabContents ∧ s.unit.d10tab = d10tabContents ∧ low w s.unit.curA = 0 :=
  ⟨running 0x305 0 0, rfl, rfl, by cases w <;> decide⟩

/-- ConversionIsNearestEven and RootIsNearest. -/
theorem witness_binary64 :
    (0 : Nat) < 2 ^ 64 ∧ 0xFFFFFFFFFFFFFFFF < 2 ^ 64 ∧ binary64 { mant := 2 ^ 52, exp := -52 } ∧
      binary64 { mant := 2 ^ 53 - 1, exp := 971 } := by unfold binary64; decide

/-- The tie of R203: 2^64 - 1024 lies as near to (2^53 - 1) * 2^11 as to 2^64, which the model takes. -/
theorem witness_conversion_tie :
    0xFFFFFFFFFFFFFC00 < 2 ^ 64 ∧ f64 0xFFFFFFFFFFFFFC00 = { mant := 2 ^ 52, exp := 12 } ∧
      2 ^ 64 - 0xFFFFFFFFFFFFFC00 = 0xFFFFFFFFFFFFFC00 - (2 ^ 53 - 1) * 2 ^ 11 := by decide +kernel

theorem witness_SqrtExactBelowBound :
    low .w64 (BitVec.ofNat 64 (2 ^ 52 + 2 ^ 27 - 1)) < 2 ^ 52 + 2 ^ 27 ∧
      (running 0x30A 0x10000008000000 0).unit.curA = 0x10000008000000 := by decide

theorem witness_SqrtAtTopOfRange :
    0xFFFFFFFFFFFFFC00 ≤ (running 0x30A 0xFFFFFFFFFFFFFC00 0).unit.curA.toNat ∧
      0xFFFFFFFE00000001 ≤ (running 0x30A 0xFFFFFFFFFFFFFBFF 0).unit.curA.toNat ∧
      (running 0x30A 0xFFFFFFFFFFFFFBFF 0).unit.curA.toNat ≤ 0xFFFFFFFFFFFFFBFF ∧
      (running 0x30A 0xFFFFFFFE00000000 0).unit.curA = 0xFFFFFFFE00000000 := by decide

theorem witness_SqrtRoundTrip :
    (2 ^ 32 - 1) * (2 ^ 32 - 1) < 2 ^ Width.w64.bits ∧
      low .w64 (BitVec.ofNat 64 ((2 ^ 32 - 1) * (2 ^ 32 - 1))) = (2 ^ 32 - 1) * (2 ^ 32 - 1) ∧
      15 * 15 < 2 ^ Width.w8.bits ∧ low .w8 225 = 15 * 15 := by decide

theorem witness_SqrtxIsExactFloor :
    (running 0x30B 17 0).params.hasSqrtx = true ∧
      ({ running 0x30B 17 0 with params := { Params.simulator with hasSqrtx := false } } : State).params.hasSqrtx =
        false := by decide

/-- ResultDependsOnLatchAlone: two states that differ outside what it names. -/
theorem witness_ResultDependsOnLatchAlone :
    ∃ s t : State, s ≠ t ∧ s.unit.curCmd = t.unit.curCmd ∧ s.unit.curA = t.unit.curA ∧ s.unit.curB = t.unit.curB ∧
      s.unit.dbtab = t.unit.dbtab ∧ s.unit.d10tab = t.unit.d10tab ∧ s.params.hasSqrtx = t.params.hasSqrtx :=
  ⟨running 0x401 5 0, { running 0x401 5 0 with unit := { (running 0x401 5 0).unit with res := 7 } },
    by decide, rfl, rfl, rfl, rfl, rfl, rfl⟩

theorem witness_HighOperandBitsIgnored :
    low (widthOf (.pow .w8)) 0x103 = low (widthOf (.pow .w8)) (running 0x002 3 2).unit.curA ∧
      low (widthOf (.pow .w8)) 0x102 = low (widthOf (.pow .w8)) (running 0x002 3 2).unit.curB := by decide

theorem witness_CommandsReadTheirTables :
    (∀ w, Instr.pow .w8 ≠ .flog2 w) ∧
      ∀ w, Instr.flog2 .w8 ≠ .flog10 w ∧ Instr.flog2 .w8 ≠ .clog10 w ∧ Instr.flog2 .w8 ≠ .lenU w ∧
        Instr.flog2 .w8 ≠ .lenS w := by
  constructor <;> intro w <;> cases w <;> decide

/-- With an empty port, with an access there, and with a host in a fault already. -/
theorem witness_ResetAbandonsAndDrops :
    ∃ s t : State, s.host.script = .reset :: [] ∧ s.host.port = [] ∧
      t.host.script = .reset :: [] ∧ t.host.port = resRead :: [] ∧ t.host.fault = none :=
  ⟨{ running 0x401 1 0 with host := { HostState.idle with script := [.reset] } },
    atPort (running 0x401 1 0) resRead [.reset], rfl, rfl, rfl, rfl, rfl⟩

/-- InvariantKeptByStep: a unit that runs a command has the invariant, and it steps on. -/
theorem witness_InvariantKeptByStep : (running 0x401 1 0).Inv ∧ ∃ t, step (running 0x401 1 0) = .next t := by
  refine ⟨?_, _, rfl⟩
  constructor <;> simp [running, State.reset, UnitState.reset, HostState.idle, Status.issued]

theorem witness_TablesNeverWritten : ∃ s t : State, step s = .next t :=
  ⟨running 0x401 1 0, _, rfl⟩

/-- CmdWriteIssuesOrIsHeld, both clauses. -/
theorem witness_CmdWriteIssuesOrIsHeld :
    (∃ s s' : State, portsTurn s s' ∧ s.host.port = [cmdWrite 0x305] ∧ s.unit.status.busy = true) ∧
      ∃ s s' : State, portsTurn s s' ∧ s.host.port = [cmdWrite 0x305] ∧ s.unit.status.busy = false :=
  ⟨⟨atPort (running 0x30A 9 0) (cmdWrite 0x305) [.port], _, ⟨rfl, .inr ⟨[], rfl, rfl⟩⟩, rfl, rfl⟩,
    ⟨atPort State.reset (cmdWrite 0x305) [], _, ⟨rfl, .inl ⟨rfl, rfl, rfl⟩⟩, rfl, rfl⟩⟩

/-- OtherWritesActAtOnce, at each of its offsets, the first and the last among them, while BUSY = 1. -/
theorem witness_OtherWritesActAtOnce (off : Nat) :
    ∃ s s' : State, portsTurn s s' ∧ s.unit.status.busy = true ∧
      s.host.port = [{ kind := .write 5, off := off, size := 8 }] :=
  ⟨atPort (running 0x30A 9 0) { kind := .write 5, off := off, size := 8 } [.port], _,
    ⟨rfl, .inr ⟨[], rfl, rfl⟩⟩, rfl, rfl⟩
theorem witness_write_offsets : (0x00 % 8 = 0 ∧ 0x00 < 0x40) ∧ 0x38 % 8 = 0 ∧ 0x38 < 0x40 := by decide

/-- ReadsReturnRegisters, the held clause and the other. -/
theorem witness_ReadsReturnRegisters :
    (∃ s s' : State, portsTurn s s' ∧ s.host.port = [resRead] ∧ s.unit.status.busy = true) ∧
      ∃ s s' : State, portsTurn s s' ∧ s.host.port = [{ kind := .read (some 3), off := 0x38, size := 8 }] :=
  ⟨⟨atPort (running 0x30A 9 0) resRead [.port], _, ⟨rfl, .inr ⟨[], rfl, rfl⟩⟩, rfl, rfl⟩,
    ⟨atPort State.reset { kind := .read (some 3), off := 0x38, size := 8 } [], _,
      ⟨rfl, .inl ⟨rfl, rfl, rfl⟩⟩, rfl⟩⟩

/-- RefusedAccessFaultsHost, for each access, with the unit BUSY. -/
theorem witness_RefusedAccessFaultsHost (a : BusAccess) :
    ∃ s s' : State, portsTurn s s' ∧ s.host.port = [a] ∧ s.unit.status.busy = true :=
  ⟨atPort (running 0x30A 9 0) a [.port], _, ⟨rfl, .inr ⟨[], rfl, rfl⟩⟩, rfl, rfl⟩
/-- Wrong size, misaligned, and the first offset outside the block (bus vectors B6, B7, B8). -/
theorem witness_refused_accesses : (4 ≠ 8) ∧ 0x04 % 8 ≠ 0 ∧ 0x40 ≤ 0x40 := by decide

/-- FaultedHostStops, both clauses. -/
theorem witness_FaultedHostStops :
    (∃ s : State, s.host.fault = some (.busError 4) ∧ s.host.script = [.port]) ∧
      ∃ s : State, s.host.fault = some (.busError 4) ∧ s.host.script = [] ∧ s.unit.status.busy = false :=
  ⟨⟨{ State.reset with host := { HostState.idle with fault := some (.busError 4), script := [.port] } }, rfl, rfl⟩,
    ⟨{ State.reset with host := { HostState.idle with fault := some (.busError 4) } }, rfl, rfl, rfl⟩⟩

/-- HostFaultNeverCleared: a host in a fault beside a unit that still completes (R224). -/
theorem witness_HostFaultNeverCleared :
    ∃ s t : State, s.host.fault = some (.busError 4) ∧ step s = .next t :=
  ⟨{ running 0x401 1 0 with host := { HostState.idle with fault := some (.busError 4) } }, _, rfl, rfl⟩

/-- CommandInFlightUndisturbed: an OPA write while BUSY = 1 (bus vector B12). -/
theorem witness_CommandInFlightUndisturbed :
    ∃ s t : State, s.unit.status.busy = true ∧ s.host.script = [.port] ∧ step s = .next t ∧ t.unit.opa = 16 :=
  ⟨atPort (running 0x30A 9 0) { kind := .write 16, off := 0x00, size := 8 } [.port], _, rfl, rfl, rfl, rfl⟩

/-- HeldReadReturnsResult, first clause: a read with a name and one without, and turns that hold all but the port's between
and all but the unit's before. -/
theorem witness_HeldReadReturnsResult_laid_down (dst : Option Name) :
    ∃ (s : State) (before between after : List Event), s.host.fault = none ∧ s.unit.status.busy = true ∧
      s.host.port = [{ kind := .read dst, off := 0x18, size := 8 }] ∧
      s.host.script = before ++ .unit :: (between ++ .port :: after) ∧
      (∀ e ∈ before, e ≠ .unit ∧ e ≠ .reset) ∧ (∀ e ∈ between, e ≠ .port ∧ e ≠ .reset) ∧
      .host ∈ before ∧ .port ∈ before ∧ .unit ∈ between ∧ s.host.program.length ≤ s.host.pc :=
  ⟨atPort (running 0x30A 9 0) { kind := .read dst, off := 0x18, size := 8 }
      [.port, .host, .issue resRead, .unit, .unit, .issue resRead, .port, .reset],
    [.port, .host, .issue resRead], [.unit, .issue resRead], [.reset], rfl, rfl, rfl, rfl, by simp, by simp, by simp,
    by simp, by simp, Nat.le_refl 0⟩

/-- The second clause, where the host's turn runs a line of a program: a run that answers a next state. -/
theorem witness_HeldReadReturnsResult_program :
    ∃ s t : State, s.host.port = [resRead] ∧ s.host.script = [.host, .unit, .port] ∧
      s.host.program = [.set 1 5] ∧ core.run 3 s = .next t :=
  ⟨{ atPort (running 0x401 9 0) resRead [.host, .unit, .port] with
      host := { (atPort (running 0x401 9 0) resRead [.host, .unit, .port]).host with program := [.set 1 5] } },
    _, rfl, rfl, rfl, rfl⟩

/-- The third clause: no turn laid down, and turns that hold none of the unit's. -/
theorem witness_HeldReadReturnsResult_fixed_order (script : List Event) :
    ∃ s : State, s.host.fault = none ∧ s.unit.status.busy = true ∧ s.host.port = [resRead] ∧
      s.host.script = script ∧ (∀ e ∈ ([] : List Event), e ≠ .unit ∧ e ≠ .reset) ∧
      ∀ e ∈ [Event.port], e ≠ .unit ∧ e ≠ .reset :=
  ⟨atPort (running 0x30A 9 0) resRead script, rfl, rfl, rfl, rfl, by simp, by simp⟩

/-- BusyUnitCompletes and SoundHostNeverStops, with turns laid down that do not let the unit move. -/
theorem witness_sound_host :
    ∃ s : State, s.SoundHost ∧ s.unit.status.busy = true ∧ s.host.script = [.port, .issue (cmdWrite 0x305)] :=
  ⟨atPort (running 0x30A 9 0) resRead [.port, .issue (cmdWrite 0x305)],
    ⟨rfl, ⟨_, SoundProgram.nil, fun _ h => h.elim⟩, by decide, by decide⟩, rfl, rfl⟩

/-- A host that runs the polling loop of R96, while the unit is BUSY. -/
def polling : State :=
  { running 0x30A 9 0 with host := { HostState.idle with script := [.host, .port], program := pollLines 1 3 2 } }

/-- The names of the polling loop: STATUS before its `andi`, the masked bit before its `bnez`. -/
theorem sound_polling : SoundProgram (pollLines 1 3 2) (fun k n => (k = 2 ∧ n = 2) ∨ (k = 3 ∧ n = 3)) := by
  have at_line : ∀ k line, (pollLines 1 3 2)[k]? = some line →
      (k = 0 ∧ line = .label 1) ∨ (k = 1 ∧ line = .rd .status 2) ∨ (k = 2 ∧ line = .andi 3 2 1) ∨
        (k = 3 ∧ line = .bnez 3 1) := by
    intro k line h
    rcases k with _ | _ | _ | _ | k <;> simp [pollLines] at h <;> simp [h]
  have label_at : findLabel (pollLines 1 3 2) 1 = some 0 := by decide
  refine ⟨?_, ?_, ?_⟩
  · intro line hl l ht
    simp only [pollLines, List.mem_cons, List.not_mem_nil, or_false] at hl
    rcases hl with rfl | rfl | rfl | rfl <;> simp [HostLine.target] at ht
    exact ⟨0, ht ▸ label_at⟩
  · intro k line h n hn
    rcases at_line k line h with ⟨rfl, rfl⟩ | ⟨rfl, rfl⟩ | ⟨rfl, rfl⟩ | ⟨rfl, rfl⟩ <;>
      simp [HostLine.reads] at hn <;> simp [hn]
  · intro k line h j hj n hn
    rcases at_line k line h with ⟨rfl, rfl⟩ | ⟨rfl, rfl⟩ | ⟨rfl, rfl⟩ | ⟨rfl, rfl⟩ <;>
      rcases hj with ⟨rfl, -⟩ | ⟨l, hl, hj⟩ <;> simp_all [HostLine.target, HostLine.binds]

/-- SoundHostNeverStops and BusyUnitCompletes: a host with a program. -/
theorem witness_sound_host_program : polling.SoundHost ∧ polling.unit.status.busy = true :=
  ⟨⟨rfl, ⟨_, sound_polling, fun n h => by simp [polling, HostState.idle] at h⟩, by simp [polling, HostState.idle],
    by decide⟩, rfl⟩

/-- PortKeepsArrivalOrder, both clauses. -/
theorem witness_PortKeepsArrivalOrder :
    (∃ s : State, s.host.fault = none ∧ s.host.script = [.issue resRead]) ∧
      ∃ s : State, s.host.script = [] ∧ s.host.port = [] ∧ s.host.fault = none ∧
        s.host.program.length ≤ s.host.pc ∧ s.unit.status.busy = false :=
  ⟨⟨{ State.reset with host := { HostState.idle with script := [.issue resRead] } }, rfl, rfl⟩,
    ⟨State.reset, rfl, rfl, rfl, Nat.le_refl 0, rfl⟩⟩

/-- A host whose turn it is, with a program, accesses at the port and a bound name. -/
def hosting (program : List HostLine) (port : List BusAccess) : State :=
  { State.reset with
    host := { HostState.idle with script := [.host], program := program, port := port, names := [(1, 4)] } }

theorem witness_hostsTurn (program : List HostLine) (port : List BusAccess) :
    ∃ s', hostsTurn (hosting program port) s' :=
  ⟨_, rfl, .inr ⟨[], rfl, rfl⟩⟩

/-- HostLinesActAsSpelled: the host's turn in the fixed order. -/
theorem witness_hostsTurn_default :
    ∃ s : State, hostsTurn s s ∧ s.host.script = [] :=
  ⟨{ hosting [.set 1 0] [] with host := { (hosting [.set 1 0] []).host with script := [] } },
    ⟨rfl, .inl ⟨rfl, rfl, rfl, by decide, rfl⟩⟩, rfl⟩

/-- Its first clause, the host that waits, and the others, the host that does not: behind a write and an unnamed read. -/
theorem witness_HostLinesActAsSpelled_waiting (line : HostLine) :
    namedReadAtPort (hosting [line] [{ kind := .read (some 3), off := 0x20, size := 8 }]) ∧
      ¬namedReadAtPort (hosting [line] [cmdWrite 0x305, resRead]) := by
  refine ⟨⟨_, List.mem_singleton.2 rfl, 3, rfl⟩, ?_⟩
  rintro ⟨a, ha, n, hk⟩
  simp only [hosting, List.mem_cons, List.not_mem_nil, or_false] at ha
  rcases ha with rfl | rfl <;> simp [cmdWrite, resRead] at hk

/-- Its clauses about a line: each line, a bound and an unbound name, a label that is there and one that is not, and the end
of the program. -/
theorem witness_HostLinesActAsSpelled_lines (line : HostLine) :
    (hosting [line, .label 7] []).host.program[(hosting [line, .label 7] []).host.pc]? = some line ∧
      lookupName (hosting [line] []).host.names 1 = some 4 ∧ lookupName (hosting [line] []).host.names 2 = none ∧
      ((hosting [.jmp 7, .label 7] []).host.program[1]? = some (.label 7) ∧
        ∀ j < 1, (hosting [.jmp 7, .label 7] []).host.program[j]? ≠ some (.label 7)) ∧
      HostLine.label 8 ∉ (hosting [.jmp 8, .label 7] []).host.program ∧
      (hosting [] []).host.program.length ≤ (hosting [] []).host.pc := by
  refine ⟨rfl, rfl, rfl, by decide, by decide, by decide⟩

/-- PseudoInstructionsExpand: a two-operand command with b, a one-operand command without, a two-operand command that is
refused without b, and a spelling that does not assemble. -/
theorem witness_PseudoInstructionsExpand_with_b :
    assemble Params.simulator { mnemonic := .binom, signed := false, width := .bits .w64 } = some 0x304 := by decide
theorem witness_PseudoInstructionsExpand_without_b :
    assemble Params.simulator { mnemonic := .abs, signed := true, width := .bits .w8 } = some 0x401 ∧
      Mnemonic.abs ≠ .pow ∧ Mnemonic.abs ≠ .powx ∧ Mnemonic.abs ≠ .binom := by decide
theorem witness_PseudoInstructionsExpand_refused :
    assemble Params.simulator { mnemonic := .pow, signed := false, width := .bits .w8 } = some 0x002 ∧
      assemble Params.simulator { mnemonic := .powx, signed := false, width := .bits .w32 } = none := by decide
/-- R95: without b, `sqrt.u64` has no `wr OPB` line, and `pow.u64` is refused. -/
theorem test_call_without_b :
    callLines Params.simulator { mnemonic := .sqrt, signed := false, width := .bits .w64 } (.imm 17) none 1 2 =
        some [.wr .opa (.imm 17), .wr .cmd (.imm 0x30A), .rd .res 1, .rd .status 2] ∧
      callLines Params.simulator { mnemonic := .pow, signed := false, width := .bits .w64 } (.imm 2) none 1 2 =
        none := by decide

/-- BusLanesLittleEndian: the first and the last bit of the first and the last lane. -/
theorem witness_BusLanesLittleEndian : (0 < 8 ∧ 7 < 8) ∧ byteLane 0x8000000000000001 0 = 0x01 ∧
    byteLane 0x8000000000000001 7 = 0x80 := by decide

theorem witness_DigitTableHoldsDigitCounts :
    d10tabContents[64]? = some { digits := 20, threshold := 10000000000000000000 } ∧
      d10tabContents[1]? = some { digits := 1, threshold := 1 } := by decide

end Sys2Proof.Tests
end

/-! ## Proofs of the scope statements: completion (R19, R33) and the binary64 functions of SQRT (R14) -/

namespace Sys2Proof.Machine

open Sys2Proof.Spec

/-! ### The unit's turn -/

/-- A completion changes what `doneWith` of the statements says it may change. -/
theorem complete_eq_doneWith (s : State) (v : Word) (ovf ill : Bool) :
    s.complete v ovf ill = doneWith s v ovf ill := rfl

/-- At the unit's turn, laid down or of the fixed order, the step is a completion in the state the turn is taken in
(R33; log entry 5). -/
theorem step_of_unitsTurn {s s' : State} (h : unitsTurn s s') : step s = completeCommand s' := by
  obtain ⟨hbusy, ⟨hscript, rfl⟩ | ⟨rest, hscript, rfl⟩⟩ := h
  · simp [step, takeTurn, hscript, defaultEvent, hbusy, runEvent, unitTurn]
  · simp [step, takeTurn, hscript, hbusy, runEvent, unitTurn]

/-- Settles O32: the step at the unit's turn is a completion, and every completion writes RES and STATUS alone. -/
theorem everyCommandCompletes : Obligations.EveryCommandCompletes := by
  intro s s' h
  obtain ⟨v, ovf, ill, hc⟩ := completeCommand_complete s'
  exact ⟨v, ovf, ill, by rw [step_of_unitsTurn h, hc, complete_eq_doneWith]⟩

/-! ### Truncation -/

/-- Settles O26: above exponent 0 the value is an integer, below it the truncation is a floor division. -/
theorem truncationIsIntegerPart : Obligations.TruncationIsIntegerPart := by
  rintro ⟨m, e⟩
  rcases Int.eq_nat_or_neg e with ⟨k, rfl | rfl⟩
  · have hreal : real ⟨m, k⟩ = ((m * 2 ^ k : ℕ) : ℝ) := by simp [real]
    have htrunc : ftrunc ⟨m, k⟩ = m * 2 ^ k := by simp [ftrunc]
    rw [hreal, htrunc]
    exact ⟨le_rfl, lt_add_one _⟩
  · have hreal : real ⟨m, -k⟩ = (m : ℝ) / ((2 ^ k : ℕ) : ℝ) := by simp [real, div_eq_mul_inv]
    have htrunc : ftrunc ⟨m, -k⟩ = ⌊(m : ℝ) / ((2 ^ k : ℕ) : ℝ)⌋₊ := by
      rw [Nat.floor_div_eq_div]
      rcases k.eq_zero_or_pos with rfl | hk
      · simp [ftrunc]
      · simp [ftrunc, hk.ne']
    rw [hreal, htrunc]
    exact ⟨Nat.floor_le (by positivity), Nat.lt_floor_add_one _⟩

/-! ### Bit-length and the integer square root -/

/-- A number is below 2^BitLen (R160). -/
theorem lt_two_pow_bitLen (n : Nat) : n < 2 ^ bitLen n := by
  unfold bitLen
  split
  · omega
  · exact Nat.lt_log2_self

/-- The highest bit that BitLen counts is set: a number above 0 is at least 2^(BitLen - 1). -/
theorem two_pow_bitLen_le {n : Nat} (h : n ≠ 0) : 2 ^ bitLen n ≤ 2 * n := by
  have := Nat.log2_self_le h
  simp only [bitLen, h, if_false, pow_succ]
  omega

/-- Each round of the root halves the interval `[acc, acc + 2^k)` that the root lies in. -/
theorem floorRootFrom_eq_sqrt (n k acc : Nat) (hlo : acc * acc ≤ n) (hhi : n < (acc + 2 ^ k) * (acc + 2 ^ k)) :
    floorRootFrom n k acc = Nat.sqrt n := by
  induction k generalizing acc with
  | zero => exact Nat.eq_sqrt.2 ⟨hlo, hhi⟩
  | succ k ih =>
    rw [floorRootFrom]
    split
    · rename_i hle
      exact ih _ hle (by rwa [add_assoc, ← two_mul, ← pow_succ'])
    · rename_i hgt
      exact ih _ hlo (Nat.lt_of_not_le hgt)

/-- The root found bit by bit is the exact integer square root (R205). -/
theorem floorRoot_eq_sqrt (n : Nat) : floorRoot n = Nat.sqrt n := by
  refine floorRootFrom_eq_sqrt n _ 0 (Nat.zero_le _) ?_
  calc n < 2 ^ bitLen n := lt_two_pow_bitLen n
    _ ≤ 2 ^ ((bitLen n + 1) / 2 + (bitLen n + 1) / 2) := Nat.pow_le_pow_right (by omega) (by omega)
    _ = _ := by rw [pow_add, zero_add]

/-! ### Rounding to nearest

The one argument behind `f64` and `fsqrt`: where the significand of 53 bits is an integer within half a unit of the
target, no binary64 value is nearer, since the values with the same or a larger exponent are multiples of that unit, and
those with a smaller one lie below the least value of that exponent. -/

/-- `m` units of `2^e` lie within half a unit of `t`, and `t` is at least the least value whose significand, in these
units, has 53 bits. -/
def NearestMultiple (t : ℝ) (m : Nat) (e : Int) : Prop :=
  2 ^ 52 * (2 : ℝ) ^ e ≤ t ∧ |t - m * (2 : ℝ) ^ e| ≤ (2 : ℝ) ^ e / 2

/-- The significand of a binary64 value that is not subnormal. -/
def F64.FullMant (x : F64) : Prop := 2 ^ 52 ≤ x.mant ∧ x.mant < 2 ^ 53

/-- Another multiple of the unit lies at least half a unit away. -/
theorem half_le_abs_sub_mul {t u : ℝ} {m k : Nat} (hu : 0 < u) (h : |t - m * u| ≤ u / 2) (hk : k ≠ m) :
    u / 2 ≤ |t - k * u| := by
  have hgap : u ≤ |(m : ℝ) * u - k * u| := by
    rw [← sub_mul, abs_mul, abs_of_pos hu]
    refine le_mul_of_one_le_left hu.le ?_
    exact_mod_cast Int.one_le_abs (sub_ne_zero.2 (Int.ofNat_inj.not.2 hk.symm))
  have := abs_sub_le ((m : ℝ) * u) t (k * u)
  rw [abs_sub_comm ((m : ℝ) * u) t] at this
  linarith

/-- A binary64 value is a multiple of the unit `2^e`, or lies below `2^52 * 2^e`. -/
theorem binary64_multiple_or_below {y : F64} (hy : binary64 y) (e : Int) :
    (∃ k : Nat, real y = k * (2 : ℝ) ^ e) ∨ real y < 2 ^ 52 * (2 : ℝ) ^ e := by
  obtain ⟨hm, -, -⟩ := hy
  rcases le_or_gt e y.exp with he | he
  · refine .inl ⟨y.mant * 2 ^ (y.exp - e).toNat, ?_⟩
    have : y.exp = ((y.exp - e).toNat : ℤ) + e := by omega
    rw [real]
    conv_lhs => rw [this]
    rw [zpow_add₀ two_ne_zero, zpow_natCast]
    push_cast
    ring
  · right
    calc real y < 2 ^ 53 * (2 : ℝ) ^ y.exp := by
          rw [real]; gcongr; exact_mod_cast hm
      _ ≤ 2 ^ 53 * (2 : ℝ) ^ (e - 1) := by
          gcongr
          · norm_num
          · omega
      _ = 2 ^ 52 * (2 : ℝ) ^ e := by rw [zpow_sub_one₀ two_ne_zero]; ring

/-- No binary64 value is nearer to `t` than its nearest multiple, and another one as near is a tie: half a unit away. -/
theorem NearestMultiple.le_of_binary64 {t : ℝ} {m : Nat} {e : Int} (h : NearestMultiple t m e) {y : F64}
    (hy : binary64 y) :
    |t - m * (2 : ℝ) ^ e| ≤ |t - real y| ∧
      (|t - m * (2 : ℝ) ^ e| = |t - real y| → real y ≠ m * (2 : ℝ) ^ e → |t - m * (2 : ℝ) ^ e| = (2 : ℝ) ^ e / 2) := by
  obtain ⟨hlow, hnear⟩ := h
  have hu : (0 : ℝ) < 2 ^ e := by positivity
  have multiple : ∀ k : Nat, k ≠ m → (2 : ℝ) ^ e / 2 ≤ |t - k * (2 : ℝ) ^ e| :=
    fun k => half_le_abs_sub_mul hu hnear
  rcases binary64_multiple_or_below hy e with ⟨k, hk⟩ | hbelow
  · rw [hk]
    by_cases hkm : k = m
    · subst hkm; simp
    · exact ⟨hnear.trans (multiple k hkm), fun heq _ => le_antisymm hnear (heq ▸ multiple k hkm)⟩
  · have hleast : |t - m * (2 : ℝ) ^ e| ≤ |t - 2 ^ 52 * (2 : ℝ) ^ e| := by
      by_cases hm : m = 2 ^ 52
      · subst hm; norm_num
      · exact_mod_cast hnear.trans (multiple (2 ^ 52) (Ne.symm hm))
    have hlt : |t - m * (2 : ℝ) ^ e| < |t - real y| := by
      rw [abs_of_nonneg (by linarith : 0 ≤ t - 2 ^ 52 * (2 : ℝ) ^ e)] at hleast
      rw [abs_of_nonneg (by linarith : 0 ≤ t - real y)]
      linarith
    exact ⟨hlt.le, fun heq => absurd heq hlt.ne⟩

/-! ### The carry out of rounding -/

/-- `F64.normal` keeps the value. -/
@[simp] theorem real_normal (m : Nat) (e : Int) : real (F64.normal m e) = m * (2 : ℝ) ^ e := by
  unfold F64.normal
  split
  · rename_i h
    rw [real, h, zpow_add_one₀ two_ne_zero]
    push_cast
    ring
  · rfl

theorem normal_fullMant {m : Nat} (e : Int) (hlo : 2 ^ 52 ≤ m) (hhi : m ≤ 2 ^ 53) : (F64.normal m e).FullMant := by
  unfold F64.normal F64.FullMant
  split <;> dsimp only <;> omega

theorem normal_exp (m : Nat) (e : Int) : (F64.normal m e).exp = e ∨ (F64.normal m e).exp = e + 1 := by
  unfold F64.normal
  split <;> simp

/-- A significand that rounding made even stays even. -/
theorem normal_mant_even {m : Nat} (e : Int) (h : m % 2 = 0) : (F64.normal m e).mant % 2 = 0 := by
  unfold F64.normal
  split <;> dsimp only <;> omega

/-! ### f64 -/

/-- `roundShift` misses `n / 2^s` by at most half, and rounds a tie to even (R14). -/
theorem roundShift_near (n s : Nat) :
    2 * n ≤ 2 * (roundShift n s * 2 ^ s) + 2 ^ s ∧ 2 * (roundShift n s * 2 ^ s) ≤ 2 * n + 2 ^ s ∧
      (2 * n = 2 * (roundShift n s * 2 ^ s) + 2 ^ s ∨ 2 * (roundShift n s * 2 ^ s) = 2 * n + 2 ^ s →
        roundShift n s % 2 = 0) := by
  have hdiv := Nat.div_add_mod' n (2 ^ s)
  have hmod := Nat.mod_lt n (Nat.two_pow_pos s)
  unfold roundShift
  dsimp only
  split
  · rw [add_mul, one_mul]
    omega
  · omega

/-- A number of 53 bits and `s` more, rounded to 53: its significand has them, or rounding carries it to 2^53. -/
theorem roundShift_bounds {n s : Nat} (h : bitLen n = s + 53) :
    2 ^ 52 ≤ roundShift n s ∧ roundShift n s ≤ 2 ^ 53 := by
  have hlt := lt_two_pow_bitLen n
  have hle := two_pow_bitLen_le (n := n) (by rintro rfl; simp [bitLen] at h)
  rw [h, pow_add, mul_comm] at hlt hle
  have hq : n / 2 ^ s < 2 ^ 53 := Nat.div_lt_of_lt_mul (mul_comm (2 ^ 53) (2 ^ s) ▸ hlt)
  have hq' : 2 ^ 52 ≤ n / 2 ^ s := (Nat.le_div_iff_mul_le (Nat.two_pow_pos _)).2 (by omega)
  unfold roundShift
  dsimp only
  split <;> omega

theorem f64_zero : f64 0 = { mant := 0, exp := 0 } := rfl

theorem real_f64_zero : real (f64 0) = 0 := by simp [f64_zero, real]

/-- A number of at most 53 bits is its own binary64 value, shifted up to a full significand. -/
theorem f64_of_bitLen_le {n d : Nat} (hn : n ≠ 0) (h : bitLen n + d = 53) :
    f64 n = { mant := n * 2 ^ d, exp := -d } := by
  have hd : 53 - bitLen n = d := by omega
  have he : (bitLen n : ℤ) - 53 = -d := by omega
  simp only [f64, hn, if_false, if_pos (by omega : bitLen n ≤ 53), hd, he]

/-- A longer number is rounded to 53 bits. -/
theorem f64_of_lt_bitLen {n s : Nat} (hs : 0 < s) (h : bitLen n = s + 53) :
    f64 n = F64.normal (roundShift n s) s := by
  have hn : n ≠ 0 := by rintro rfl; simp [bitLen] at h
  have hd : bitLen n - 53 = s := by omega
  have he : (bitLen n : ℤ) - 53 = s := by omega
  simp only [f64, hn, if_false, if_neg (by omega : ¬bitLen n ≤ 53), hd, he]

/-- The three forms of a conversion: zero, exact, rounded. -/
theorem f64_forms (n : Nat) :
    n = 0 ∨ (n ≠ 0 ∧ ∃ d, bitLen n + d = 53) ∨ ∃ s, 0 < s ∧ bitLen n = s + 53 := by
  rcases eq_or_ne n 0 with hn | hn
  · exact .inl hn
  · rcases le_or_gt (bitLen n) 53 with h | h
    · exact .inr (.inl ⟨hn, 53 - bitLen n, by omega⟩)
    · exact .inr (.inr ⟨bitLen n - 53, by omega, by omega⟩)

/-- Up to 53 bits the conversion is exact. -/
theorem real_f64_of_bitLen_le {n : Nat} (h : bitLen n ≤ 53) : real (f64 n) = n := by
  rcases f64_forms n with rfl | ⟨hn, d, hd⟩ | ⟨s, hs, hlen⟩
  · simp [real_f64_zero]
  · rw [f64_of_bitLen_le hn hd, real]
    push_cast
    rw [mul_assoc, ← zpow_natCast, ← zpow_add₀ two_ne_zero]
    simp
  · omega

/-- The conversion of a number above 0 has a full significand. -/
theorem f64_fullMant {n : Nat} (hn : n ≠ 0) : (f64 n).FullMant := by
  rcases f64_forms n with h | ⟨-, d, h⟩ | ⟨s, hs, h⟩
  · exact absurd h hn
  · have hlt := lt_two_pow_bitLen n
    have hle := two_pow_bitLen_le hn
    have hscale : 2 ^ bitLen n * 2 ^ d = 2 ^ 53 := by rw [← pow_add, h]
    rw [f64_of_bitLen_le hn h]
    constructor
    · have := Nat.mul_le_mul_right (2 ^ d) hle
      rw [hscale, mul_assoc] at this
      dsimp only
      omega
    · exact hscale ▸ Nat.mul_lt_mul_of_pos_right hlt (Nat.two_pow_pos d)
  · rw [f64_of_lt_bitLen hs h]
    exact normal_fullMant _ (roundShift_bounds h).1 (roundShift_bounds h).2

/-- The exponents of the conversions of 64-bit numbers. -/
theorem f64_exp_bounds {n : Nat} (h64 : n < 2 ^ 64) : -53 ≤ (f64 n).exp ∧ (f64 n).exp ≤ 12 := by
  have hlen := bitLen_le (BitVec.ofNat 64 n)
  rw [BitVec.toNat_ofNat, Nat.mod_eq_of_lt h64] at hlen
  rcases f64_forms n with rfl | ⟨hn, d, h⟩ | ⟨s, hs, h⟩
  · simp [f64_zero]
  · rw [f64_of_bitLen_le hn h]
    dsimp only
    omega
  · rw [f64_of_lt_bitLen hs h]
    rcases normal_exp (roundShift n s) s with he | he <;> omega

theorem f64_binary64 {n : Nat} (h64 : n < 2 ^ 64) : binary64 (f64 n) := by
  obtain ⟨hlo, hhi⟩ := f64_exp_bounds h64
  refine ⟨?_, by omega, by omega⟩
  rcases eq_or_ne n 0 with rfl | hn
  · simp [f64_zero]
  · exact (f64_fullMant hn).2

/-- Rounding to 53 bits takes the nearest multiple of the unit `2^s`. -/
theorem roundShift_nearestMultiple {n s : Nat} (h : bitLen n = s + 53) :
    NearestMultiple n (roundShift n s) s := by
  have hle := two_pow_bitLen_le (n := n) (by rintro rfl; simp [bitLen] at h)
  obtain ⟨hup, hdown, -⟩ := roundShift_near n s
  have hle' : 2 ^ 52 * 2 ^ s ≤ n := by rw [h, pow_add, mul_comm] at hle; omega
  refine ⟨by rw [zpow_natCast]; exact_mod_cast hle', ?_⟩
  have hup' : 2 * (n : ℝ) ≤ 2 * (roundShift n s * 2 ^ s) + 2 ^ s := by exact_mod_cast hup
  have hdown' : 2 * (roundShift n s * (2 : ℝ) ^ s) ≤ 2 * n + 2 ^ s := by exact_mod_cast hdown
  rw [zpow_natCast, abs_le]
  constructor <;> linarith

/-- A number half a unit from the multiple taken is a tie, and the multiple taken is even. -/
theorem roundShift_even_of_tie {n s : Nat} (h : |(n : ℝ) - roundShift n s * 2 ^ s| = 2 ^ s / 2) :
    roundShift n s % 2 = 0 := by
  refine (roundShift_near n s).2.2 ?_
  rcases eq_or_eq_neg_of_abs_eq h with h | h
  · left
    have : 2 * (n : ℝ) = 2 * (roundShift n s * 2 ^ s) + 2 ^ s := by linarith
    exact_mod_cast this
  · right
    have : 2 * (roundShift n s * (2 : ℝ) ^ s) = 2 * n + 2 ^ s := by linarith
    exact_mod_cast this

/-- An exact value is nearest, and nothing else is as near. -/
theorem abs_sub_le_of_exact {t v : ℝ} (hv : v = t) (z : ℝ) :
    |t - v| ≤ |t - z| ∧ (|t - v| = |t - z| → z = v) := by
  rw [hv, sub_self, abs_zero]
  exact ⟨abs_nonneg _, fun heq => (sub_eq_zero.1 (abs_eq_zero.1 heq.symm)).symm⟩

/-- Settles O24: up to 53 bits the conversion is exact; above them it takes the nearest multiple of its unit, and the
even one in a tie. -/
theorem conversionIsNearestEven : Obligations.ConversionIsNearestEven := by
  intro n h64
  refine ⟨f64_binary64 h64, fun y hy => ?_⟩
  rcases le_or_gt (bitLen n) 53 with hlen | hlen
  · obtain ⟨hle, honly⟩ := abs_sub_le_of_exact (real_f64_of_bitLen_le hlen) (real y)
    exact ⟨hle, fun heq hne => absurd (honly heq) hne⟩
  · obtain ⟨s, h⟩ := Nat.exists_eq_add_of_le' hlen.le
    obtain ⟨hle, htie⟩ := (roundShift_nearestMultiple h).le_of_binary64 hy
    rw [f64_of_lt_bitLen (by omega) h, real_normal]
    exact ⟨hle, fun heq hne => normal_mant_even _ (roundShift_even_of_tie (by simpa using htie heq hne))⟩

/-! ### fsqrt -/

/-- Which of the two integers around a root is taken, by the side of `(r + 1/2)^2` the operand lies on. -/
theorem nearestRoot_cases (n : Nat) :
    (Nat.sqrt n * Nat.sqrt n + Nat.sqrt n + 1 ≤ n ∧ nearestRoot n = Nat.sqrt n + 1) ∨
      (n ≤ Nat.sqrt n * Nat.sqrt n + Nat.sqrt n ∧ nearestRoot n = Nat.sqrt n) := by
  unfold nearestRoot
  rw [floorRoot_eq_sqrt]
  dsimp only
  split <;> omega

/-- The integer nearest to a root misses it by at most half. -/
theorem abs_sqrt_sub_nearestRoot_le (n : Nat) : |Real.sqrt n - nearestRoot n| ≤ 1 / 2 := by
  have hfloor : (Nat.sqrt n : ℝ) ≤ Real.sqrt n := Real.nat_sqrt_le_real_sqrt
  have hceil : Real.sqrt n ≤ Nat.sqrt n + 1 := Real.real_sqrt_le_nat_sqrt_succ
  rcases nearestRoot_cases n with ⟨habove, hr⟩ | ⟨hbelow, hr⟩
  · have habove' : (Nat.sqrt n * Nat.sqrt n + Nat.sqrt n + 1 : ℝ) ≤ n := by exact_mod_cast habove
    have hhalf : (Nat.sqrt n + 1 / 2 : ℝ) ≤ Real.sqrt n := Real.le_sqrt_of_sq_le (by nlinarith)
    rw [hr, Nat.cast_succ, abs_le]
    constructor <;> linarith
  · have hbelow' : (n : ℝ) ≤ Nat.sqrt n * Nat.sqrt n + Nat.sqrt n := by exact_mod_cast hbelow
    have hhalf : Real.sqrt n ≤ Nat.sqrt n + 1 / 2 := Real.sqrt_le_iff.2 ⟨by positivity, by nlinarith⟩
    rw [hr, abs_le]
    constructor <;> linarith

/-- The root of a scaled significand, of 105 or 106 bits, has 53 bits, or rounding carries it to 2^53. -/
theorem nearestRoot_bounds {n : Nat} (hlo : 2 ^ 104 ≤ n) (hhi : n < 2 ^ 106) :
    2 ^ 52 ≤ nearestRoot n ∧ nearestRoot n ≤ 2 ^ 53 := by
  have hroot : 2 ^ 52 ≤ Nat.sqrt n := Nat.le_sqrt.2 (by omega)
  have hroot' : Nat.sqrt n < 2 ^ 53 := Nat.sqrt_lt.2 (by omega)
  rcases nearestRoot_cases n with ⟨-, hr⟩ | ⟨-, hr⟩ <;> omega

/-- The root of a value with a full significand: the scaled significand and the halved exponent, with the value they
stand for. -/
theorem fsqrt_of_fullMant {x : F64} (h : x.FullMant) :
    ∃ (n : Nat) (e : Int), fsqrt x = F64.normal (nearestRoot n) e ∧ 2 ^ 104 ≤ n ∧ n < 2 ^ 106 ∧
      real x = n * ((2 : ℝ) ^ e * 2 ^ e) ∧ x.exp - 53 ≤ 2 * e ∧ 2 * e ≤ x.exp - 52 := by
  obtain ⟨hlo, hhi⟩ := h
  have hk : ∃ k : Nat, (k = 52 ∨ k = 53) ∧ k = (if x.exp % 2 = 0 then 52 else 53) ∧ 2 ∣ x.exp - k := by
    split
    · exact ⟨52, .inl rfl, rfl, by omega⟩
    · exact ⟨53, .inr rfl, rfl, by omega⟩
  obtain ⟨k, hk, hif, e, he⟩ := hk
  refine ⟨x.mant * 2 ^ k, e, ?_, ?_, ?_, ?_, by omega, by omega⟩
  · rw [fsqrt, if_neg (by omega), ← hif]
    dsimp only
    rw [he, Int.mul_ediv_cancel_left _ two_ne_zero]
  · rcases hk with rfl | rfl <;> omega
  · rcases hk with rfl | rfl <;> omega
  · have hexp : x.exp = k + (e + e) := by omega
    rw [real, hexp, zpow_add₀ two_ne_zero, zpow_add₀ two_ne_zero, zpow_natCast]
    push_cast
    ring

/-- fsqrt is correctly rounded on every binary64 value with a full significand. -/
theorem fsqrt_nearest {x : F64} (hx : binary64 x) (hfull : x.FullMant) :
    binary64 (fsqrt x) ∧ ∀ y : F64, binary64 y →
      |Real.sqrt (real x) - real (fsqrt x)| ≤ |Real.sqrt (real x) - real y| := by
  obtain ⟨-, hexpLo, hexpHi⟩ := hx
  obtain ⟨n, e, hroot, hlo, hhi, hreal, he1, he2⟩ := fsqrt_of_fullMant hfull
  obtain ⟨hmLo, hmHi⟩ := nearestRoot_bounds hlo hhi
  rw [hroot]
  constructor
  · refine ⟨(normal_fullMant e hmLo hmHi).2, ?_, ?_⟩ <;> rcases normal_exp (nearestRoot n) e with he | he <;> omega
  · have hsqrt : Real.sqrt (real x) = Real.sqrt n * 2 ^ e := by
      rw [hreal, Real.sqrt_mul (by positivity), Real.sqrt_mul_self (by positivity)]
    have hnear : NearestMultiple (Real.sqrt (real x)) (nearestRoot n) e := by
      have hroot52 : (2 : ℝ) ^ 52 ≤ Real.sqrt n :=
        Real.le_sqrt_of_sq_le (by rw [← pow_mul]; exact_mod_cast hlo)
      rw [NearestMultiple, hsqrt, ← sub_mul, abs_mul, abs_of_pos (by positivity : (0 : ℝ) < 2 ^ e)]
      refine ⟨by gcongr, ?_⟩
      calc _ ≤ 1 / 2 * (2 : ℝ) ^ e := by gcongr; exact abs_sqrt_sub_nearestRoot_le n
        _ = _ := by ring
    intro y hy
    rw [real_normal]
    exact (hnear.le_of_binary64 hy).1

/-- Settles O25: the conversion of a number above 0 has a full significand, and the root of zero is exact. -/
theorem rootIsNearest : Obligations.RootIsNearest := by
  intro n h64
  rcases eq_or_ne n 0 with rfl | hn
  · have hroot : fsqrt (f64 0) = f64 0 := rfl
    rw [hroot, real_f64_zero, Real.sqrt_zero, sub_zero, abs_zero]
    exact ⟨f64_binary64 h64, fun y _ => abs_nonneg _⟩
  · exact fsqrt_nearest (f64_binary64 h64) (f64_fullMant hn)

end Sys2Proof.Machine

/-! ## Proofs of the state statements: what a command reads and writes, and what every step keeps (10_state.md) -/

namespace Sys2Proof.Machine

open Sys2Proof.Spec

/-! ### What a completion writes -/

/-- RES and STATUS after a completion say what it was given. -/
theorem complete_inj {s : State} {v v' : Word} {ovf ovf' ill ill' : Bool}
    (h : s.complete v ovf ill = s.complete v' ovf' ill') : v = v' ∧ ovf = ovf' ∧ ill = ill' := by
  have hunit := congrArg State.unit h
  have hstatus := congrArg UnitState.status hunit
  exact ⟨congrArg UnitState.res hunit, congrArg Status.ovf hstatus, congrArg Status.ill hstatus⟩

/-- A completion that writes what RES and STATUS hold already changes nothing. -/
theorem complete_eq_self {s : State} {v : Word} {ovf ill : Bool} (hres : s.unit.res = v)
    (hstatus : s.unit.status = Status.completed ovf ill) : s.complete v ovf ill = s := by
  subst hres
  rw [State.complete, ← hstatus]

/-- What a legal command writes: its result placed, its overflow output, and no ILL (R87, R92). -/
theorem finish_inv {n : Nat} {s : State} {x : BitVec n} {c : Bool} {v : Word} {ovf ill : Bool}
    (h : s.finish x c = .next (s.complete v ovf ill)) : place x = v ∧ c = ovf ∧ false = ill :=
  complete_inj (Host.Outcome.next.inj h)

/-- What an illegal command writes (R90). -/
theorem completeIllegal_inv {s : State} {v : Word} {ovf ill : Bool}
    (h : s.completeIllegal = .next (s.complete v ovf ill)) : 0 = v ∧ false = ovf ∧ true = ill :=
  complete_inj (Host.Outcome.next.inj h)

/-- A result computed in one state completes another with the same RES and STATUS. -/
theorem finish_transfer {n : Nat} {s : State} {x : BitVec n} {c : Bool} {v : Word} {ovf ill : Bool}
    (h : s.finish x c = .next (s.complete v ovf ill)) (t : State) : t.finish x c = .next (t.complete v ovf ill) := by
  obtain ⟨rfl, rfl, rfl⟩ := finish_inv h
  rfl

theorem completeIllegal_transfer {s : State} {v : Word} {ovf ill : Bool}
    (h : s.completeIllegal = .next (s.complete v ovf ill)) (t : State) :
    t.completeIllegal = .next (t.complete v ovf ill) := by
  obtain ⟨rfl, rfl, rfl⟩ := completeIllegal_inv h
  rfl

/-! ### What a command reads -/

/-- The one command that reads DBTAB (R37). -/
def ReadsDbtab (i : Instr) : Prop := ∃ w, i = .flog2 w

/-- The commands that read D10TAB (R37). -/
def ReadsD10tab (i : Instr) : Prop := ∃ w, i = .flog10 w ∨ i = .clog10 w ∨ i = .lenU w ∨ i = .lenS w

/-- `t` holds what `s` holds in every place that the instruction reads. -/
structure SameReads (i : Instr) (s t : State) : Prop where
  curA : t.unit.curA = s.unit.curA
  curB : t.unit.curB = s.unit.curB
  dbtab : ReadsDbtab i → t.unit.dbtab = s.unit.dbtab
  d10tab : ReadsD10tab i → t.unit.d10tab = s.unit.d10tab
  hasSqrtx : t.params.hasSqrtx = s.params.hasSqrtx

/-- A command's result is a function of what it reads: RES and STATUS come out the same (R34, R37). -/
theorem exec_transfer {i : Instr} {s t : State} (h : SameReads i s t) {v : Word} {ovf ill : Bool}
    (hs : exec i s = .next (s.complete v ovf ill)) : exec i t = .next (t.complete v ovf ill) := by
  have hA : ∀ w, operandA w t = operandA w s := fun w => congrArg (lowBits w) h.curA
  have hB : ∀ w, operandB w t = operandB w s := fun w => congrArg (lowBits w) h.curB
  cases i
  case abs | pow | powx | binom | clog2 | sqrt =>
    simp only [exec, execAbs, execPow, execPowx, execBinom, execClog2, execSqrt, hA, hB] at hs ⊢
    exact finish_transfer hs t
  case flog2 w =>
    have hd := h.dbtab ⟨w, rfl⟩
    simp only [exec, execFlog2, hA, hd] at hs ⊢
    exact finish_transfer hs t
  case flog10 w | clog10 w | lenU w | lenS w =>
    have hd := h.d10tab ⟨w, by simp⟩
    simp only [exec, execFlog10, execClog10, execLenU, execLenS, hA, hd] at hs ⊢
    exact finish_transfer hs t
  case sqrtx w =>
    simp only [exec, execSqrtx, hA, h.hasSqrtx] at hs ⊢
    split at hs
    case isTrue hx => rw [if_pos hx]; exact finish_transfer hs t
    case isFalse hx => rw [if_neg hx]; exact completeIllegal_transfer hs t

/-- The unit completes a legal word by the meaning of its instruction, and an illegal one by reporting it (R92). -/
theorem completeCommand_of_decode {s : State} {i : Instr} (h : decode s.unit.curCmd = some i) :
    completeCommand s = exec i s := by
  simp [completeCommand, h]

theorem completeCommand_of_illegal {s : State} (h : decode s.unit.curCmd = none) :
    completeCommand s = s.completeIllegal := by
  simp [completeCommand, h]

/-- `t` holds what `s` holds in the latch, the tables and HAS_SQRTX. -/
structure SameLatch (s t : State) : Prop where
  curCmd : t.unit.curCmd = s.unit.curCmd
  curA : t.unit.curA = s.unit.curA
  curB : t.unit.curB = s.unit.curB
  dbtab : t.unit.dbtab = s.unit.dbtab
  d10tab : t.unit.d10tab = s.unit.d10tab
  hasSqrtx : t.params.hasSqrtx = s.params.hasSqrtx

theorem SameLatch.sameReads {s t : State} (h : SameLatch s t) (i : Instr) : SameReads i s t :=
  ⟨h.curA, h.curB, fun _ => h.dbtab, fun _ => h.d10tab, h.hasSqrtx⟩

/-- What completion writes is a function of the latch, the tables and HAS_SQRTX (R34). -/
theorem completeCommand_transfer {s t : State} (h : SameLatch s t) {v : Word} {ovf ill : Bool}
    (hs : completeCommand s = .next (s.complete v ovf ill)) : completeCommand t = .next (t.complete v ovf ill) := by
  cases hd : decode s.unit.curCmd with
  | none =>
    rw [completeCommand_of_illegal hd] at hs
    rw [completeCommand_of_illegal (h.curCmd ▸ hd)]
    exact completeIllegal_transfer hs t
  | some i =>
    rw [completeCommand_of_decode hd] at hs
    rw [completeCommand_of_decode (h.curCmd ▸ hd)]
    exact exec_transfer (h.sameReads i) hs

/-- Where RES and STATUS are what completion writes, completing again changes nothing (R25, R226). -/
theorem completeCommand_self {s t : State} (h : SameLatch s t) {v : Word} {ovf ill : Bool}
    (hs : completeCommand s = .next (s.complete v ovf ill)) (hres : t.unit.res = v)
    (hstatus : t.unit.status = Status.completed ovf ill) : completeCommand t = .next t := by
  rw [completeCommand_transfer h hs, complete_eq_self hres hstatus]

/-- Settles O34: completion is a function of the latch, the tables and HAS_SQRTX. -/
theorem resultDependsOnLatchAlone : Obligations.ResultDependsOnLatchAlone := by
  intro s t hcmd ha hb hdb hd10 hx
  obtain ⟨v, ovf, ill, hs⟩ := completeCommand_complete s
  exact ⟨v, ovf, ill, hs, completeCommand_transfer ⟨hcmd.symm, ha.symm, hb.symm, hdb.symm, hd10.symm, hx.symm⟩ hs⟩

/-- Settles O37: another content of a table is none of the places that the other commands read. -/
theorem commandsReadTheirTables : Obligations.CommandsReadTheirTables := by
  intro i s
  obtain ⟨v, ovf, ill, hs⟩ := exec_complete i s
  refine ⟨v, ovf, ill, hs, fun d hno => ?_, fun d hno => ?_⟩
  · have reads : SameReads i s { s with unit := { s.unit with dbtab := d } } :=
      ⟨rfl, rfl, fun ⟨w, hi⟩ => absurd hi (hno w), fun _ => rfl, rfl⟩
    exact exec_transfer reads hs
  · have reads : SameReads i s { s with unit := { s.unit with d10tab := d } } :=
      ⟨rfl, rfl, fun _ => rfl, fun ⟨w, hi⟩ => by have := hno w; tauto, rfl⟩
    exact exec_transfer reads hs

/-! ### The flags of a completion -/

/-- The checked loop of R126 leaves 0 where it overflows. -/
theorem powxLoop_zero_of_overflow (fuel : Nat) (result base : Word) (e : Nat)
    (h : (powxLoop fuel result base e).2 = true) : (powxLoop fuel result base e).1 = 0 := by
  fun_induction powxLoop with
  | case1 | case2 | case4 => cases h -- the exponent is used up, with no overflow
  | case3 | case5 => rfl -- a product or a square overflows
  | case6 => rename_i ih; exact ih h -- the loop goes on

/-- The loop of R143 leaves 0 where it overflows. -/
theorem binomLoop_zero_of_overflow (remaining : Nat) (i c n : Word)
    (h : (binomLoop remaining i c n).2 = true) : (binomLoop remaining i c n).1 = 0 := by
  fun_induction binomLoop with
  | case1 => cases h -- the last step, with no overflow
  | case2 | case3 => rfl -- a product or a sum overflows
  | case4 => rename_i ih; exact ih h -- the loop goes on

theorem powxDatapath_zero_of_overflow {a b : Word} (h : (powxDatapath a b).2 = true) : (powxDatapath a b).1 = 0 :=
  powxLoop_zero_of_overflow _ _ _ _ h

theorem binomDatapath_zero_of_overflow {n k : Word} (h : (binomDatapath n k).2 = true) :
    (binomDatapath n k).1 = 0 := by
  unfold binomDatapath at h ⊢
  split_ifs at h ⊢
  exact binomLoop_zero_of_overflow _ _ _ _ h

/-- Which commands report a condition, and that RES is 0 then (R27, R90, R224). -/
theorem exec_flags {i : Instr} {s : State} {v : Word} {ovf ill : Bool} (h : exec i s = .next (s.complete v ovf ill)) :
    (ovf = true → (i = .powx ∨ i = .binom) ∧ v = 0 ∧ ill = false) ∧
      (ill = true → v = 0 ∧ ∃ w, i = .sqrtx w ∧ s.params.hasSqrtx = false) := by
  cases i
  case powx =>
    obtain ⟨rfl, rfl, rfl⟩ := finish_inv h
    exact ⟨fun hov => ⟨.inl rfl, by simp [place, powxDatapath_zero_of_overflow hov], rfl⟩, nofun⟩
  case binom =>
    obtain ⟨rfl, rfl, rfl⟩ := finish_inv h
    exact ⟨fun hov => ⟨.inr rfl, by simp [place, binomDatapath_zero_of_overflow hov], rfl⟩, nofun⟩
  case sqrtx w =>
    simp only [exec, execSqrtx] at h
    split at h
    case isTrue =>
      obtain ⟨rfl, rfl, rfl⟩ := finish_inv h
      exact ⟨nofun, nofun⟩
    case isFalse hx =>
      obtain ⟨rfl, rfl, rfl⟩ := completeIllegal_inv h
      exact ⟨nofun, fun _ => ⟨rfl, w, rfl, Bool.eq_false_of_not_eq_true hx⟩⟩
  all_goals
    obtain ⟨rfl, rfl, rfl⟩ := finish_inv h
    exact ⟨nofun, nofun⟩

/-- Settles O33: every command completes, and its flags are those of `exec_flags`. -/
theorem overflowOnlyFromPowxAndBinom : Obligations.OverflowOnlyFromPowxAndBinom := by
  intro i s
  obtain ⟨v, ovf, ill, h⟩ := exec_complete i s
  exact ⟨v, ovf, ill, h, exec_flags h⟩

/-- A completion reports at most one condition, and then leaves RES = 0 (R27, R90, R224). -/
theorem completeCommand_flags {s : State} {v : Word} {ovf ill : Bool}
    (h : completeCommand s = .next (s.complete v ovf ill)) :
    ¬(ovf = true ∧ ill = true) ∧ (ovf = true ∨ ill = true → v = 0) := by
  cases hd : decode s.unit.curCmd with
  | none =>
    rw [completeCommand_of_illegal hd] at h
    obtain ⟨rfl, rfl, rfl⟩ := completeIllegal_inv h
    exact ⟨nofun, fun _ => rfl⟩
  | some i =>
    rw [completeCommand_of_decode hd] at h
    obtain ⟨hovf, hill⟩ := exec_flags h
    refine ⟨fun ⟨hov, hil⟩ => ?_, fun hflag => ?_⟩
    · exact absurd (hovf hov).2.2 (by simp [hil])
    · exact hflag.elim (fun hov => (hovf hov).2.1) (fun hil => (hill hil).1)

/-! ### What a step does to the unit -/

/-- `e` is the turn that is next, laid down or of the fixed order, and `s'` is the state it is taken in. -/
def NextTurn (s : State) (e : Event) (s' : State) : Prop :=
  (s.host.script = [] ∧ defaultEvent s = some e ∧ s' = s) ∨
    ∃ rest, s.host.script = e :: rest ∧ s' = { s with host := { s.host with script := rest } }

theorem step_of_nextTurn {s s' : State} {e : Event} (h : NextTurn s e s') : step s = runEvent e s' := by
  obtain ⟨hscript, he, rfl⟩ | ⟨rest, hscript, rfl⟩ := h
  · simp [step, takeTurn, hscript, he]
  · simp [step, takeTurn, hscript]

/-- A step to a next state is a turn, or nothing moves. -/
theorem step_next {s t : State} (h : step s = .next t) :
    t = s ∨ ∃ e s', NextTurn s e s' ∧ runEvent e s' = .next t := by
  rcases step_cases s with ⟨e, rest, hscript, hstep⟩ | ⟨hscript, e, he, hstep⟩ | ⟨-, -, hstep⟩
  · refine .inr ⟨e, s.dropTurn, .inr ⟨rest, hscript, ?_⟩, hstep ▸ h⟩
    rw [State.dropTurn, hscript, List.tail_cons]
  · exact .inr ⟨e, s, .inl ⟨hscript, he, rfl⟩, hstep ▸ h⟩
  · exact .inl (Host.Outcome.next.inj (h.symm.trans hstep))

theorem NextTurn.unit_eq {s s' : State} {e : Event} (h : NextTurn s e s') : s'.unit = s.unit := by
  obtain ⟨-, -, rfl⟩ | ⟨rest, -, rfl⟩ := h <;> rfl

theorem NextTurn.params_eq {s s' : State} {e : Event} (h : NextTurn s e s') : s'.params = s.params := by
  obtain ⟨-, -, rfl⟩ | ⟨rest, -, rfl⟩ := h <;> rfl

theorem NextTurn.names_eq {s s' : State} {e : Event} (h : NextTurn s e s') : s'.host.names = s.host.names := by
  obtain ⟨-, -, rfl⟩ | ⟨rest, -, rfl⟩ := h <;> rfl

/-- The unit's turn of the statements is the turn `.unit`, of a BUSY unit. -/
theorem unitsTurn_iff {s s' : State} :
    unitsTurn s s' ↔ s.unit.status.busy = true ∧ NextTurn s .unit s' := by
  refine and_congr_right fun hbusy => ?_
  simp [NextTurn, defaultEvent, hbusy]

/-- The port's turn of the statements is the turn `.port`, of a host without a fault, once an access stands at the port. -/
theorem portsTurn_iff {s s' : State} (hport : s.host.port ≠ []) :
    portsTurn s s' ↔ s.host.fault = none ∧ NextTurn s .port s' := by
  refine and_congr_right fun _ => or_congr_left (and_congr_right fun _ => and_congr_left fun _ => ?_)
  simp [defaultEvent, hport]

/-- Everything a turn can do to the unit. -/
inductive UnitMove (s : State) : Event → UnitState → Prop where
  /-- At most the operand registers change. -/
  | quiet (e : Event) (a b : Word) : UnitMove s e { s.unit with opa := a, opb := b }
  /-- A CMD write issues a command (R32). -/
  | issue (v : Word) (idle : s.unit.status.busy = false) : UnitMove s .port (s.unit.issue v)
  /-- The command in flight completes (R33). -/
  | complete (v : Word) (ovf ill : Bool) (busy : s.unit.status.busy = true)
      (completes : completeCommand s = .next (s.complete v ovf ill)) : UnitMove s .unit (s.complete v ovf ill).unit
  /-- The platform resets the unit (R250). -/
  | reset : UnitMove s .reset { UnitState.reset with dbtab := s.unit.dbtab, d10tab := s.unit.d10tab }

theorem UnitMove.same (s : State) (e : Event) : UnitMove s e s.unit := .quiet e s.unit.opa s.unit.opb

theorem unitTurn_move {s t : State} (h : unitTurn s = .next t) : UnitMove s .unit t.unit := by
  cases hbusy : s.unit.status.busy with
  | false =>
    simp only [unitTurn, hbusy] at h
    cases h
    exact .same s .unit
  | true =>
    obtain ⟨v, ovf, ill, hc⟩ := completeCommand_complete s
    simp only [unitTurn, hbusy, if_true, hc] at h
    cases h
    exact .complete v ovf ill hbusy hc

/-- A write that is not held moves the unit as R50 says. -/
theorem writeReg_move {s : State} {a : BusAccess} {v : Word} (hkind : a.kind = .write v)
    (hheld : a.held s.unit.status = false) : UnitMove s .port (s.unit.writeReg a.off v) := by
  rcases writeReg_cases s.unit a.off v with ⟨-, hw⟩ | ⟨-, hw⟩ | ⟨hoff, hw⟩ | ⟨-, -, -, hw⟩ <;> rw [hw]
  · exact .quiet .port v s.unit.opb
  · exact .quiet .port s.unit.opa v
  · exact .issue v (by simpa [BusAccess.held, hkind, hoff] using hheld)
  · exact .same s .port

theorem portTurn_move {s t : State} (h : portTurn s = .next t) : UnitMove s .port t.unit := by
  rcases portTurn_cases s with ⟨-, ht⟩ | ⟨a, rest, -, -, ht⟩ | ⟨a, rest, -, -, -, ht⟩ | ⟨a, rest, -, -, hheld, ht⟩ <;>
    cases h.symm.trans ht
  · exact .same s .port
  · exact .same s .port
  · exact .same s .port
  · rcases perform_unit s.dequeue a with hu | ⟨v, hkind, hu⟩
    · exact hu ▸ .same s .port
    · exact hu ▸ writeReg_move hkind hheld

/-- What a turn to a next state does to the unit (R31 to R33, R250). -/
theorem runEvent_move {e : Event} {s t : State} (h : runEvent e s = .next t) : UnitMove s e t.unit := by
  cases e with
  | unit => exact unitTurn_move h
  | port => exact portTurn_move (hostMove_next h).2
  | host =>
    obtain ⟨hu, -⟩ := hostTurn_next (hostMove_next h).2
    exact hu ▸ .same s .host
  | issue a =>
    cases (hostMove_next h).2
    exact .same s _
  | reset =>
    cases h
    exact resetUnit_unit s ▸ .reset

/-- The names after an access: as they were, or with the value of a read bound. -/
theorem perform_names (s : State) (a : BusAccess) :
    (s.perform a).host.names = s.host.names ∨ ∃ n v, (s.perform a).host.names = bindName s.host.names n v := by
  rcases hkind : a.kind with (_ | n) | v
  · exact .inl (by simp [State.perform, hkind])
  · exact .inr ⟨n, s.unit.readReg a.off, by simp [State.perform, hkind]⟩
  · exact .inl (by simp [State.perform, hkind])

/-- A turn changes no parameter, and leaves the names as they were or binds one. -/
theorem runEvent_params_names {e : Event} {s t : State} (h : runEvent e s = .next t) :
    t.params = s.params ∧ (t.host.names = s.host.names ∨ ∃ n v, t.host.names = bindName s.host.names n v) := by
  cases e with
  | unit =>
    rcases unitTurn_cases s with ⟨-, v, ovf, ill, ht⟩ | ⟨-, ht⟩ <;> cases h.symm.trans ht <;> exact ⟨rfl, .inl rfl⟩
  | port =>
    rcases portTurn_cases s with ⟨-, ht⟩ | ⟨a, rest, -, -, ht⟩ | ⟨a, rest, -, -, -, ht⟩ | ⟨a, rest, -, -, -, ht⟩ <;>
      cases (hostMove_next h).2.symm.trans ht
    · exact ⟨rfl, .inl rfl⟩
    · exact ⟨rfl, .inl rfl⟩
    · exact ⟨rfl, .inl rfl⟩
    · exact ⟨perform_params s.dequeue a, perform_names s.dequeue a⟩
  | host =>
    obtain ⟨-, hparams, -, -, -, -, -, hnames⟩ := hostTurn_next (hostMove_next h).2
    exact ⟨hparams, hnames⟩
  | issue a =>
    cases (hostMove_next h).2
    exact ⟨rfl, .inl rfl⟩
  | reset =>
    cases h
    exact ⟨resetUnit_params s, .inl (resetUnit_names s)⟩

theorem UnitMove.tables {s : State} {e : Event} {u : UnitState} (h : UnitMove s e u) :
    u.dbtab = s.unit.dbtab ∧ u.d10tab = s.unit.d10tab := by
  cases h <;> exact ⟨rfl, rfl⟩

/-- Settles O45: none of the unit's moves writes a table, and no turn changes a parameter. -/
theorem tablesNeverWritten : Obligations.TablesNeverWritten := by
  intro s t h
  rcases step_next h with rfl | ⟨e, s', hturn, hrun⟩
  · exact ⟨rfl, rfl, rfl⟩
  · obtain ⟨hdb, hd10⟩ := (runEvent_move hrun).tables
    rw [hturn.unit_eq] at hdb hd10
    exact ⟨hdb, hd10, (runEvent_params_names hrun).1.trans hturn.params_eq⟩

/-- Settles O52: while BUSY = 1 the port issues no command, so that only the unit and a reset are left to move more than
the operand registers. -/
theorem commandInFlightUndisturbed : Obligations.CommandInFlightUndisturbed := by
  intro s t hbusy h
  rcases step_next h with rfl | ⟨e, s', hturn, hrun⟩
  · exact .inr (.inr rfl)
  · have hunit := hturn.unit_eq
    generalize hu : t.unit = u
    cases hu ▸ runEvent_move hrun with
    | quiet e a b => exact .inr (.inr (by rw [hunit]))
    | issue v idle => simp [hunit, hbusy] at idle
    | complete v ovf ill _ _ => exact .inl ⟨s', unitsTurn_iff.2 ⟨hbusy, hturn⟩⟩
    | reset =>
      rcases hturn with ⟨-, hdefault, -⟩ | ⟨rest, hscript, -⟩
      · simp [defaultEvent, hbusy] at hdefault
      · exact .inr (.inl ⟨rest, hscript⟩)

/-! ### The invariant -/

/-- The operand registers and the host side do not enter the invariant, but for the names. -/
theorem State.Inv.quiet {s : State} (hi : s.Inv) (a b : Word) {host : HostState} (hnames : namesWf host.names) :
    State.Inv { unit := { s.unit with opa := a, opb := b }, host := host, params := s.params } where
  notBoth := hi.notBoth
  flagsNeedDone := hi.flagsNeedDone
  oneCondition := hi.oneCondition
  zeroWhenFlagged := hi.zeroWhenFlagged
  cmdIsLatched := hi.cmdIsLatched
  beforeAnyCommand := hi.beforeAnyCommand
  resultIsTheLatched hdone := by
    obtain ⟨v, ovf, ill, hc⟩ := completeCommand_complete s
    have hself : s = s.complete v ovf ill := Host.Outcome.next.inj ((hi.resultIsTheLatched hdone).symm.trans hc)
    have hunit := congrArg State.unit hself
    exact completeCommand_self (s := s) ⟨rfl, rfl, rfl, rfl, rfl, rfl⟩ hc (congrArg UnitState.res hunit)
      (congrArg UnitState.status hunit)
  dbtabHolds := hi.dbtabHolds
  d10tabHolds := hi.d10tabHolds
  namesCanonical := hnames

/-- A command just issued is in flight, with no flag, and CMD is its word (R32). -/
theorem State.Inv.issue {s : State} (hi : s.Inv) (v : Word) {host : HostState} (hnames : namesWf host.names) :
    State.Inv { unit := s.unit.issue v, host := host, params := s.params } where
  notBoth := by simp
  flagsNeedDone _ := ⟨rfl, rfl⟩
  oneCondition := by simp
  zeroWhenFlagged := by simp
  cmdIsLatched _ := rfl
  beforeAnyCommand := nofun
  resultIsTheLatched := nofun
  dbtabHolds := hi.dbtabHolds
  d10tabHolds := hi.d10tabHolds
  namesCanonical := hnames

/-- A completed command has its flags with RES = 0, and RES and STATUS are its result: a completion does not change what
completion reads (R27, R33, R34). -/
theorem State.Inv.complete {s : State} (hi : s.Inv) {v : Word} {ovf ill : Bool} (hbusy : s.unit.status.busy = true)
    (hc : completeCommand s = .next (s.complete v ovf ill)) {host : HostState} (hnames : namesWf host.names) :
    State.Inv { unit := (s.complete v ovf ill).unit, host := host, params := s.params } where
  notBoth := by simp
  flagsNeedDone := nofun
  oneCondition := (completeCommand_flags hc).1
  zeroWhenFlagged := (completeCommand_flags hc).2
  cmdIsLatched _ := hi.cmdIsLatched (.inl hbusy)
  beforeAnyCommand := nofun
  resultIsTheLatched _ := completeCommand_self (s := s) ⟨rfl, rfl, rfl, rfl, rfl, rfl⟩ hc rfl rfl
  dbtabHolds := hi.dbtabHolds
  d10tabHolds := hi.d10tabHolds
  namesCanonical := hnames

/-- A unit just reset has no command and no flag; its tables are those it had (R38, R250). -/
theorem inv_of_reset {dbtab : Vector (BitVec 6) 64} {d10tab : Vector DigitRow 65} {host : HostState}
    (hdbtab : dbtab = dbtabContents) (hd10tab : d10tab = d10tabContents) (hnames : namesWf host.names) (p : Params) :
    State.Inv { unit := { UnitState.reset with dbtab := dbtab, d10tab := d10tab }, host := host, params := p } where
  notBoth := nofun
  flagsNeedDone _ := ⟨rfl, rfl⟩
  oneCondition := nofun
  zeroWhenFlagged _ := rfl
  cmdIsLatched _ := rfl
  beforeAnyCommand _ _ := ⟨rfl, rfl⟩
  resultIsTheLatched := nofun
  dbtabHolds := hdbtab
  d10tabHolds := hd10tab
  namesCanonical := hnames

/-- Settles O43: the reset state is a unit just reset, with the printed tables and no name bound. -/
theorem invariantAtReset : Obligations.InvariantAtReset :=
  inv_of_reset rfl rfl List.Pairwise.nil Params.simulator

/-- Every move of the unit keeps the invariant. -/
theorem UnitMove.keeps_inv {s t : State} {e : Event} (h : UnitMove s e t.unit) (hi : s.Inv)
    (hparams : t.params = s.params) (hnames : namesWf t.host.names) : t.Inv := by
  obtain ⟨u, host, p⟩ := t
  subst hparams
  cases h with
  | quiet e a b => exact hi.quiet a b hnames
  | issue v _ => exact hi.issue v hnames
  | complete v ovf ill hbusy hc => exact hi.complete hbusy hc hnames
  | reset => exact inv_of_reset hi.dbtabHolds hi.d10tabHolds hnames s.params

theorem runEvent_namesWf {e : Event} {s t : State} (h : runEvent e s = .next t) (hwf : namesWf s.host.names) :
    namesWf t.host.names := by
  rcases (runEvent_params_names h).2 with hn | ⟨n, v, hn⟩ <;> rw [hn]
  · exact hwf
  · exact bindName_wf n v hwf

/-- The state a turn is taken in has the invariant. -/
theorem NextTurn.keeps_inv {s s' : State} {e : Event} (h : NextTurn s e s') (hi : s.Inv) : s'.Inv :=
  (show UnitMove s e s'.unit from h.unit_eq ▸ .same s e).keeps_inv hi h.params_eq (h.names_eq ▸ hi.namesCanonical)

/-- Settles O44: each move of the unit keeps the invariant, and binding a name keeps the names canonical. -/
theorem invariantKeptByStep : Obligations.InvariantKeptByStep := by
  intro s t hi h
  rcases step_next h with rfl | ⟨e, s', hturn, hrun⟩
  · exact hi
  · have hi' : s'.Inv := hturn.keeps_inv hi
    exact (runEvent_move hrun).keeps_inv hi' (runEvent_params_names hrun).1
      (runEvent_namesWf hrun hi'.namesCanonical)

/-! ### Issue and completion in a step -/

/-- Settles O5: the latched word stands in the state the turn is taken in. -/
theorem stepRunsDecodedCommand : Obligations.StepRunsDecodedCommand := by
  intro s s' i hturn hd
  have hunit : s'.unit = s.unit := (unitsTurn_iff.1 hturn).2.unit_eq
  rw [step_of_unitsTurn hturn, completeCommand_of_decode (hunit ▸ hd)]

/-- The decoder reads every instruction back from its own word (R81, R88). -/
theorem decode_encode (i : Instr) : decode (encode i) = some i := by
  cases i with
  | abs w => exact Laws.RoundTrip.abs w
  | pow w => exact Laws.RoundTrip.pow w
  | powx => exact Laws.RoundTrip.powx
  | binom => exact Laws.RoundTrip.binom
  | flog2 w => exact Laws.RoundTrip.flog2 w
  | clog2 w => exact Laws.RoundTrip.clog2 w
  | flog10 w => exact Laws.RoundTrip.flog10 w
  | clog10 w => exact Laws.RoundTrip.clog10 w
  | lenU w => exact Laws.RoundTrip.lenU w
  | lenS w => exact Laws.RoundTrip.lenS w
  | sqrt w => exact Laws.RoundTrip.sqrt w
  | sqrtx w => exact Laws.RoundTrip.sqrtx w

/-- A command word is a table word of all its 64 bits. -/
@[simp] theorem tableWord_toNat (c : Word) : tableWord 64 c.toNat = c := by
  simp [tableWord, Nat.mod_eq_of_lt c.isLt]

/-- Once a word is issued, the unit's turn is next, and the turns laid down before stand as they stood (log entry 7). -/
theorem unitsTurn_withCommand (s : State) (c : Word) :
    unitsTurn (s.withCommand c) { s with unit := s.unit.issue c } := by
  refine ⟨rfl, ?_⟩
  obtain ⟨u, ⟨script, port, trace, fault, program, pc, names⟩, p⟩ := s
  cases script with
  | nil => exact .inl ⟨rfl, rfl⟩
  | cons e rest => exact .inr ⟨e :: rest, rfl, rfl⟩

/-- Settles O6: the unit's turn is next, and its latch holds the word. -/
theorem fetchWordRunsNext : Obligations.FetchWordRunsNext := by
  intro s i
  refine ⟨by simp [decodeTableWord, decode_encode], ?_⟩
  rw [State.withFetchWord, tableWord_toNat]
  exact stepRunsDecodedCommand _ _ i (unitsTurn_withCommand s (encode i)) (decode_encode i)

/-- At the port's turn, laid down or of the fixed order, the step is the port's turn in the state it is taken in. -/
theorem step_of_portsTurn {s s' : State} (h : portsTurn s s') (hport : s.host.port ≠ []) : step s = portTurn s' := by
  obtain ⟨hfault, hturn⟩ := (portsTurn_iff hport).1 h
  have hfault' : s'.host.fault = none := by obtain ⟨-, -, rfl⟩ | ⟨rest, -, rfl⟩ := hturn <;> exact hfault
  rw [step_of_nextTurn hturn, runEvent, hostMove, hfault']

/-- An admitted access that is held stays (R257, R258). -/
theorem portTurn_held {s : State} {a : BusAccess} {rest : List BusAccess} (hport : s.host.port = a :: rest)
    (hadmitted : a.admitted = true) (hheld : a.held s.unit.status = true) : portTurn s = .next s := by
  simp [portTurn, hport, hadmitted, hheld]

/-- An admitted access that is not held is performed and leaves the port (R60). -/
theorem portTurn_performed {s : State} {a : BusAccess} {rest : List BusAccess} (hport : s.host.port = a :: rest)
    (hadmitted : a.admitted = true) (hheld : a.held s.unit.status = false) :
    portTurn s = .next (s.dequeue.perform a) := by
  simp [portTurn, hport, hadmitted, hheld]

/-- A CMD write at the port's head is admitted, and held exactly while BUSY = 1 (R32, R257). -/
theorem portTurn_cmdWrite {s : State} {v : Word} {rest : List BusAccess}
    (hport : s.host.port = { kind := .write v, off := 0x10, size := 8 } :: rest) :
    (s.unit.status.busy = true → portTurn s = .next s) ∧
      (s.unit.status.busy = false →
        portTurn s = .next { s with
          unit := s.unit.issue v
          host := { s.host with port := rest, trace := .write 0x10 v :: s.host.trace } }) := by
  have hadmitted : BusAccess.admitted { kind := .write v, off := 0x10, size := 8 } = true :=
    hostReg_admitted .cmd (.write v)
  have hheld : BusAccess.held { kind := .write v, off := 0x10, size := 8 } s.unit.status = s.unit.status.busy := by
    simp [BusAccess.held]
  refine ⟨fun hbusy => portTurn_held hport hadmitted (hheld.trans hbusy), fun hidle => ?_⟩
  rw [portTurn_performed hport hadmitted (hheld.trans hidle), perform_write _ _ v rfl, State.dequeue, hport]
  rfl

/-- Settles O46: the step is the port's turn, with a CMD write at the port's head. -/
theorem cmdWriteIssuesOrIsHeld : Obligations.CmdWriteIssuesOrIsHeld := by
  intro s s' v rest hturn hport
  have hne : s.host.port ≠ [] := by simp [hport]
  rw [step_of_portsTurn hturn hne]
  obtain ⟨-, ⟨-, -, rfl⟩ | ⟨turns, -, rfl⟩⟩ := (portsTurn_iff hne).1 hturn
  · exact portTurn_cmdWrite hport
  · exact portTurn_cmdWrite (s := { s with host := { s.host with script := turns } }) hport

/-! ### STATUS, the tables and reset -/

/-- STATUS as a bit string, bit 0 first (R26). -/
theorem toWord_eq_ofBoolListLE (st : Status) :
    st.toWord = (BitVec.ofBoolListLE [st.busy, st.done, st.ovf, st.ill]).setWidth 64 := by
  obtain ⟨busy, done, ovf, ill⟩ := st
  revert busy done ovf ill
  decide

/-- Settles O42: the bits of STATUS are those of its bit string. -/
theorem statusBitsStandInPlace : Obligations.StatusBitsStandInPlace := by
  intro st j
  rw [toWord_eq_ofBoolListLE, BitVec.getLsbD_setWidth, BitVec.getLsbD_ofBoolListLE]
  match j with
  | 0 | 1 | 2 | 3 => rfl
  | j + 4 => simp

/-- Settles O38, entry by entry. -/
theorem dbtabHoldsBitPositions : Obligations.DbtabHoldsBitPositions := by
  unfold Obligations.DbtabHoldsBitPositions
  decide

/-- Settles O39, row by row. -/
theorem digitTableHoldsDigitCounts : Obligations.DigitTableHoldsDigitCounts := by
  have rows : ∀ b : Fin 65, 1 ≤ b.val →
      (d10tabContents[b.val]?).map (fun r => (r.digits.toNat, r.threshold.toNat)) =
        some (decimalDigits (2 ^ b.val - 1), 10 ^ (decimalDigits (2 ^ b.val - 1) - 1)) := by decide
  exact ⟨rfl, fun b h1 h64 => rows ⟨b, by omega⟩ h1⟩

/-- Settles O40, field by field. -/
theorem resetLeavesRegistersZero : Obligations.ResetLeavesRegistersZero :=
  ⟨rfl, rfl, rfl, rfl, rfl, rfl, rfl, rfl⟩

end Sys2Proof.Machine

/-! ## Proofs of the bus statements: the register block, the port and held accesses (20_memory.md) -/

namespace Sys2Proof.Machine

open Sys2Proof.Spec

/-! ### Runs -/

/-- A run begins with a step. -/
theorem run_succ_of_step {s t : State} (h : step s = .next t) (k : Nat) : core.run (k + 1) s = core.run k t := by
  simp only [Host.Core.run, show core.step s = .next t from h]

/-- A run that answers a next state began with a step that did. -/
theorem step_of_run_succ {s t : State} {k : Nat} (h : core.run (k + 1) s = .next t) :
    ∃ u, step s = .next u ∧ core.run k u = .next t := by
  cases hstep : step s with
  | next u => exact ⟨u, rfl, run_succ_of_step hstep k ▸ h⟩
  | fault f => simp [Host.Core.run, show core.step s = .fault f from hstep] at h
  | refused r => simp [Host.Core.run, show core.step s = .refused r from hstep] at h

/-! ### The port's turn, access by access -/

/-- The state a turn is taken in differs in the turns left. -/
theorem NextTurn.eq_withScript {s s' : State} {e : Event} (h : NextTurn s e s') :
    ∃ turns, s' = { s with host := { s.host with script := turns } } := by
  obtain ⟨-, -, rfl⟩ | ⟨rest, -, rfl⟩ := h
  · exact ⟨s'.host.script, rfl⟩
  · exact ⟨rest, rfl⟩

/-- At the port's turn with an access at its head, the step is the port's turn in `s` with the turns left. -/
theorem step_of_portsTurn_cons {s s' : State} {a : BusAccess} {rest : List BusAccess} (h : portsTurn s s')
    (hport : s.host.port = a :: rest) :
    (∃ turns, s' = { s with host := { s.host with script := turns } }) ∧ step s = portTurn s' := by
  have hne : s.host.port ≠ [] := by simp [hport]
  exact ⟨((portsTurn_iff hne).1 h).2.eq_withScript, step_of_portsTurn h hne⟩

/-- The accesses of R52, condition by condition. -/
theorem admitted_iff (a : BusAccess) : a.admitted = true ↔ a.size = 8 ∧ a.off % 8 = 0 ∧ a.off < 0x40 := by
  simp [BusAccess.admitted]

/-- An access that is not admitted leaves the port and puts a host without a fault in one (R52, R222). -/
theorem portTurn_refused {s : State} {a : BusAccess} {rest : List BusAccess} (hport : s.host.port = a :: rest)
    (hfault : s.host.fault = none) (hrefused : a.admitted = false) :
    portTurn s = .next { s with host := { s.host with port := rest, fault := some (.busError a.off) } } := by
  simp [portTurn, hport, hrefused, State.dequeue, State.raise, hfault]

/-- Of the writes, only a CMD write is held (R257, R259). -/
theorem not_held_write {v : Word} {off size : Nat} (hoff : off ≠ 0x10) (st : Status) :
    BusAccess.held { kind := .write v, off := off, size := size } st = false := by
  simp [BusAccess.held, hoff]

/-- Of the reads, only a RES read is held, and only while BUSY = 1 (R258, R259). -/
theorem held_read_iff {dst : Option Name} {off size : Nat} {st : Status} :
    BusAccess.held { kind := .read dst, off := off, size := size } st = true ↔ off = 0x18 ∧ st.busy = true := by
  simp [BusAccess.held, and_comm]

/-- STATUS as a sum of its bits' values (R26). -/
theorem toWord_eq_sum (st : Status) :
    st.toWord = BitVec.ofNat 64 ((if st.busy then 1 else 0) + (if st.done then 2 else 0) +
      (if st.ovf then 4 else 0) + (if st.ill then 8 else 0)) := by
  obtain ⟨busy, done, ovf, ill⟩ := st
  revert busy done ovf ill
  decide

/-- A read returns what the map of R50 gives. -/
theorem readReg_eq_registerAt (u : UnitState) (off : Nat) : u.readReg off = registerAt u off := by
  unfold UnitState.readReg
  split
  case h_1 | h_2 | h_3 | h_4 => rfl
  case h_5 => exact toWord_eq_sum u.status
  case h_6 h0 h8 h10 h18 h20 =>
    rw [registerAt, if_neg h0, if_neg h8, if_neg h10, if_neg h18, if_neg h20]

/-- The names after a read for `dst` has returned `v` (R94). -/
def bindRead (names : List (Name × Word)) (dst : Option Name) (v : Word) : List (Name × Word) :=
  match dst with
  | some n => bindName names n v
  | none => names

/-- A read that is performed is seen, and binds its name if it has one (R56, R94). -/
theorem perform_read (s : State) (dst : Option Name) (off size : Nat) :
    s.perform { kind := .read dst, off := off, size := size } =
      { s with host := { s.host with
          trace := .read off (registerAt s.unit off) :: s.host.trace
          names := bindRead s.host.names dst (registerAt s.unit off) } } := by
  rw [← readReg_eq_registerAt]
  cases dst <;> rfl

/-- A write at an offset other than 0x10 sets OPA or OPB, or has no effect (R54, R57). -/
theorem writeReg_of_ne_cmd (u : UnitState) {off : Nat} (v : Word) (hoff : off ≠ 0x10) :
    u.writeReg off v =
      if off = 0x00 then { u with opa := v } else if off = 0x08 then { u with opb := v } else u := by
  rcases writeReg_cases u off v with ⟨rfl, hw⟩ | ⟨rfl, hw⟩ | ⟨rfl, -⟩ | ⟨h0, h8, -, hw⟩
  · exact hw
  · exact hw
  · exact absurd rfl hoff
  · rw [hw, if_neg h0, if_neg h8]

/-- A write in the block that is no CMD write is performed whatever BUSY is (R54, R57). -/
theorem portTurn_otherWrite {s : State} {v : Word} {off : Nat} {rest : List BusAccess}
    (hport : s.host.port = { kind := .write v, off := off, size := 8 } :: rest) (halign : off % 8 = 0)
    (hblock : off < 0x40) (hoff : off ≠ 0x10) :
    portTurn s = .next { s with
      unit := if off = 0x00 then { s.unit with opa := v }
        else if off = 0x08 then { s.unit with opb := v } else s.unit
      host := { s.host with port := rest, trace := .write off v :: s.host.trace } } := by
  rw [portTurn_performed hport ((admitted_iff _).2 ⟨rfl, halign, hblock⟩) (not_held_write hoff _),
    perform_write _ _ v rfl, State.dequeue, hport, writeReg_of_ne_cmd _ v hoff]
  rfl

/-- Settles O47: the step is the port's turn, with such a write at the port's head. -/
theorem otherWritesActAtOnce : Obligations.OtherWritesActAtOnce := by
  intro s s' off v rest hturn halign hblock hoff hport
  obtain ⟨⟨turns, rfl⟩, hstep⟩ := step_of_portsTurn_cons hturn hport
  exact hstep.trans (portTurn_otherWrite hport halign hblock hoff)

/-- A read in the block stays held exactly when it is a RES read while BUSY = 1, and is performed otherwise (R55, R56,
R258). -/
theorem portTurn_read {s : State} {dst : Option Name} {off : Nat} {rest : List BusAccess}
    (hport : s.host.port = { kind := .read dst, off := off, size := 8 } :: rest) (halign : off % 8 = 0)
    (hblock : off < 0x40) :
    (off = 0x18 ∧ s.unit.status.busy = true → portTurn s = .next s) ∧
      (¬(off = 0x18 ∧ s.unit.status.busy = true) →
        portTurn s = .next { s with
          host := { s.host with
            port := rest
            trace := .read off (registerAt s.unit off) :: s.host.trace
            names := bindRead s.host.names dst (registerAt s.unit off) } }) := by
  have hadmitted : BusAccess.admitted { kind := .read dst, off := off, size := 8 } = true :=
    (admitted_iff _).2 ⟨rfl, halign, hblock⟩
  refine ⟨fun hheld => portTurn_held hport hadmitted (held_read_iff.2 hheld), fun hfree => ?_⟩
  rw [portTurn_performed hport hadmitted (Bool.eq_false_of_not_eq_true (mt held_read_iff.1 hfree)), perform_read,
    State.dequeue, hport]
  rfl

/-- Settles O48: the step is the port's turn, with such a read at the port's head. -/
theorem readsReturnRegisters : Obligations.ReadsReturnRegisters := by
  intro s s' off dst rest hturn halign hblock hport
  obtain ⟨⟨turns, rfl⟩, hstep⟩ := step_of_portsTurn_cons hturn hport
  have hread := portTurn_read (s := { s with host := { s.host with script := turns } }) hport halign hblock
  exact ⟨fun hheld => hstep.trans (hread.1 hheld), fun hfree => hstep.trans (hread.2 hfree)⟩

/-- Settles O49: no access outside R52 is admitted, whatever BUSY is. -/
theorem refusedAccessFaultsHost : Obligations.RefusedAccessFaultsHost := by
  intro s s' a rest hturn hbad hport
  have hrefused : a.admitted = false := by
    rw [Bool.eq_false_iff, Ne, admitted_iff]
    omega
  have hfault : s.host.fault = none := hturn.1
  obtain ⟨⟨turns, rfl⟩, hstep⟩ := step_of_portsTurn_cons hturn hport
  exact hstep.trans (portTurn_refused hport hfault hrefused)

/-- Settles O56: an access laid down reaches the port's tail, and an idle machine has no turn in the fixed order. -/
theorem portKeepsArrivalOrder : Obligations.PortKeepsArrivalOrder := by
  refine ⟨fun s a rest hfault hscript => ?_, fun s hscript hport hfault hended hidle => ?_⟩
  · rw [step_of_nextTurn (.inr ⟨rest, hscript, rfl⟩), runEvent, hostMove, hfault]
    rfl
  · have hnone : defaultEvent s = none := by simp [defaultEvent, hidle, hport, hfault, hended]
    simp [step, takeTurn, hscript, hnone]

/-! ### Byte lanes -/

/-- Bit k of lane j is bit 8j+k of the word (R53). -/
theorem byteLane_getLsbD (v : Word) (j : Nat) {k : Nat} (hk : k < 8) :
    (byteLane v j).getLsbD k = v.getLsbD (8 * j + k) := by
  simp [byteLane, hk]

/-- Bit i of the word of lanes is bit i mod 8 of lane i / 8 (R53). -/
theorem wordOfLanes_getLsbD (lanes : List Byte) {i : Nat} (hi : i < 64) :
    (wordOfLanes lanes).getLsbD i = (lanes.getD (i / 8) 0).getLsbD (i % 8) := by
  induction lanes generalizing i with
  | nil => simp [wordOfLanes]
  | cons b rest ih =>
    rcases Nat.lt_or_ge i 8 with hlow | hhigh
    · simp [wordOfLanes, hi, hlow, Nat.div_eq_of_lt, Nat.mod_eq_of_lt]
    · have hdiv : i / 8 = (i - 8) / 8 + 1 := by omega
      have hmod : i % 8 = (i - 8) % 8 := by omega
      have hlane : b.getLsbD i = false := BitVec.getLsbD_of_ge b i hhigh
      have hsub : i - 8 < 64 := by omega
      rw [hdiv, hmod, List.getD_cons_succ, ← ih hsub]
      simp [wordOfLanes, hi, hlane, hsub, Nat.not_lt.2 hhigh, BitVec.getLsbD_eq_getElem]

/-- The eight lanes of a word make it again. -/
theorem wordOfLanes_byteLane (v : Word) : wordOfLanes ((List.range 8).map (byteLane v)) = v := by
  refine BitVec.eq_of_getLsbD_eq fun i hi => ?_
  have hlane : ((List.range 8).map (byteLane v)).getD (i / 8) 0 = byteLane v (i / 8) := by
    simp [List.getD_eq_getElem?_getD, show i / 8 < 8 by omega]
  rw [wordOfLanes_getLsbD _ hi, hlane, byteLane_getLsbD v _ (Nat.mod_lt i (by decide)), Nat.div_add_mod]

/-- Settles O57: lane by lane, and for the addresses by the form of UNIT_BASE. -/
theorem busLanesLittleEndian : Obligations.BusLanesLittleEndian := by
  refine ⟨fun v j k _ hk => byteLane_getLsbD v j hk, wordOfLanes_byteLane, fun p kind off j => ⟨?_, rfl, ?_⟩⟩
  · simp [Params.unitBase]
  · simp [accessAt, laneAddress]

/-! ### Turns that a held access waits through -/

/-- From `s` to `t` turns may have gone by, accesses may have come to the port's tail and the host may have run lines of
its program; the unit, the trace, the host's fault and the accesses that stood at the port are as they were. -/
structure Waited (s t : State) : Prop where
  unit : t.unit = s.unit
  params : t.params = s.params
  fault : t.host.fault = s.host.fault
  trace : t.host.trace = s.host.trace
  port : ∃ more, t.host.port = s.host.port ++ more

theorem Waited.trans {s t u : State} (h : Waited s t) (h' : Waited t u) : Waited s u := by
  obtain ⟨more, hport⟩ := h.port
  obtain ⟨more', hport'⟩ := h'.port
  exact ⟨h'.unit.trans h.unit, h'.params.trans h.params, h'.fault.trans h.fault, h'.trace.trans h.trace,
    more ++ more', by rw [hport', hport, List.append_assoc]⟩

/-- Completions with the same result do not touch what the host and the port's tail have done. -/
theorem Waited.complete {s t : State} (h : Waited s t) (v : Word) (ovf ill : Bool) :
    Waited (s.complete v ovf ill) (t.complete v ovf ill) :=
  ⟨by simp only [State.complete, h.unit], h.params, h.fault, h.trace, h.port⟩

/-- The host's own turn touches no more than that. -/
theorem HostOnly.waited {s t : State} (h : HostOnly s t) : Waited s t := by
  obtain ⟨hunit, hparams, -, hfault, htrace, -, hport, -⟩ := h
  exact ⟨hunit, hparams, hfault, htrace, hport⟩

/-- The state `s` with the turns `after` left, once `more` has come to its port. -/
def State.arrived (s : State) (more : List BusAccess) (after : List Event) : State :=
  { s with host := { s.host with script := after, port := s.host.port ++ more } }

theorem waited_arrived (s : State) (more : List BusAccess) (after : List Event) : Waited s (s.arrived more after) :=
  ⟨rfl, rfl, rfl, rfl, more, rfl⟩

@[simp] theorem State.arrived_arrived (s : State) (more more' : List BusAccess) (after after' : List Event) :
    (s.arrived more after).arrived more' after' = s.arrived (more ++ more') after' := by
  simp [State.arrived]

/-- Taking a turn off the script is `arrived` with no access. -/
theorem withScript_eq_arrived (s : State) (after : List Event) :
    { s with host := { s.host with script := after } } = s.arrived [] after := by
  simp [State.arrived]

/-- A turn that can change neither the unit nor the head of the port: the port's while it holds its head, the unit's while
it is idle, the host's, and the arrival of an access. -/
def WaitingTurn (s : State) : Event → Prop
  | .unit => s.unit.status.busy = false
  | .port => ∃ a rest, s.host.port = a :: rest ∧ a.admitted = true ∧ a.held s.unit.status = true
  | .host => True
  | .issue _ => True
  | .reset => False

/-- A turn that waits in `s` waits after turns that waited. -/
theorem WaitingTurn.after {s t : State} {e : Event} (h : WaitingTurn s e) (hst : Waited s t) : WaitingTurn t e := by
  cases e with
  | unit => exact (congrArg (fun u => u.status.busy) hst.unit).trans (show s.unit.status.busy = false from h)
  | port =>
    obtain ⟨a, rest, hport, hadmitted, hheld⟩ := h
    obtain ⟨more, hmore⟩ := hst.port
    exact ⟨a, rest ++ more, by rw [hmore, hport, List.cons_append], hadmitted, hst.unit ▸ hheld⟩
  | host | issue => trivial
  | reset => exact h.elim

/-- The host runs no line: it waits for a read of its own, or its program has ended. -/
def HostQuiet (s : State) : Prop := namedReadAtPort s ∨ s.host.program.length ≤ s.host.pc

theorem HostQuiet.arrived {s : State} (h : HostQuiet s) (more : List BusAccess) (after : List Event) :
    HostQuiet (s.arrived more after) :=
  h.imp_left fun ⟨a, ha, hname⟩ => ⟨a, List.mem_append_left more ha, hname⟩

/-- With a quiet host, all that a waiting turn does is to put its access at the port. -/
theorem runEvent_waiting {s : State} {e : Event} (h : WaitingTurn s e) (hfault : s.host.fault = none)
    (hquiet : e = .host → HostQuiet s) : runEvent e s = .next (s.arrived (issuedBy [e]) s.host.script) := by
  have hsame : s.arrived [] s.host.script = s := (withScript_eq_arrived s s.host.script).symm
  cases e with
  | unit =>
    have hidle : s.unit.status.busy = false := h
    simp [runEvent, unitTurn, hidle, issuedBy, hsame]
  | port =>
    obtain ⟨a, rest, hport, hadmitted, hheld⟩ := h
    simp [runEvent, hostMove, hfault, portTurn_held hport hadmitted hheld, issuedBy, hsame]
  | host =>
    have hturn : hostTurn s = .next s := hostTurn_quiet ((hquiet rfl).imp_left (awaitsRead_iff s.host).2)
    simp [runEvent, hostMove, hfault, hturn, issuedBy, hsame]
  | issue a => simp [runEvent, hostMove, hfault, issuedBy, State.arrived, State.enqueue]
  | reset => exact h.elim

/-- Whatever the host does at its turn, a waiting turn leaves the unit and the port's head as they are. -/
theorem waited_of_runEvent {s t : State} {e : Event} (h : WaitingTurn s e) (hfault : s.host.fault = none)
    (hrun : runEvent e s = .next t) : Waited s t ∧ t.host.script = s.host.script := by
  by_cases he : e = .host
  · subst he
    have honly : HostOnly s t := hostTurn_next (hostMove_next hrun).2
    exact ⟨honly.waited, honly.2.2.1⟩
  · cases hrun.symm.trans (runEvent_waiting h hfault fun hhost => absurd hhost he)
    exact ⟨waited_arrived s _ _, rfl⟩

theorem issuedBy_cons (e : Event) (turns : List Event) : issuedBy (e :: turns) = issuedBy [e] ++ issuedBy turns :=
  List.filterMap_append (l := [e])

/-- A step that takes a laid-down waiting turn, with a quiet host. -/
theorem step_waiting {s : State} {e : Event} {after : List Event} (hscript : s.host.script = e :: after)
    (h : WaitingTurn s e) (hfault : s.host.fault = none) (hquiet : e = .host → HostQuiet s) :
    step s = .next (s.arrived (issuedBy [e]) after) := by
  rw [step_of_nextTurn (.inr ⟨after, hscript, rfl⟩), withScript_eq_arrived,
    runEvent_waiting (h.after (waited_arrived s [] after)) hfault fun he => (hquiet he).arrived _ _,
    State.arrived_arrived]
  rfl

/-- Waiting turns with a quiet host bring their accesses to the port, and that is all. -/
theorem run_waiting {turns after : List Event} {s : State} (hscript : s.host.script = turns ++ after)
    (hfault : s.host.fault = none) (hwait : ∀ e ∈ turns, WaitingTurn s e) (hquiet : .host ∈ turns → HostQuiet s)
    (k : Nat) : core.run (turns.length + k) s = core.run k (s.arrived (issuedBy turns) after) := by
  induction turns generalizing s with
  | nil =>
    have hs : s.arrived [] after = s := by rw [← withScript_eq_arrived, ← List.nil_append after, ← hscript]
    rw [List.length_nil, Nat.zero_add]
    exact congrArg (core.run k) hs.symm
  | cons e turns ih =>
    let s' := s.arrived (issuedBy [e]) (turns ++ after)
    have hs : Waited s s' := waited_arrived s _ _
    calc core.run (turns.length + 1 + k) s
      _ = core.run (turns.length + k) s' := by
        rw [Nat.add_right_comm]
        exact run_succ_of_step (step_waiting hscript (hwait e List.mem_cons_self) hfault
          fun he => hquiet (he ▸ List.mem_cons_self)) _
      _ = core.run k (s'.arrived (issuedBy turns) after) :=
        ih rfl hfault (fun e' he' => (hwait e' (List.mem_cons_of_mem e he')).after hs)
          (fun hhost => (hquiet (List.mem_cons_of_mem e hhost)).arrived _ _)
      _ = core.run k (s.arrived (issuedBy (e :: turns)) after) := by
        rw [State.arrived_arrived, ← issuedBy_cons]

/-- A run through waiting turns that answers a next state comes, behind them, to a state in which nothing but the host and
the port's tail has moved. -/
theorem waited_of_run {turns after : List Event} {s t : State} {k : Nat} (hscript : s.host.script = turns ++ after)
    (hfault : s.host.fault = none) (hwait : ∀ e ∈ turns, WaitingTurn s e)
    (hrun : core.run (turns.length + k) s = .next t) :
    ∃ u, Waited s u ∧ u.host.script = after ∧ core.run k u = .next t := by
  induction turns generalizing s with
  | nil => exact ⟨s, ⟨rfl, rfl, rfl, rfl, [], by simp⟩, hscript, by simpa using hrun⟩
  | cons e turns ih =>
    rw [List.length_cons, Nat.add_right_comm] at hrun
    obtain ⟨v, hstep, hrun⟩ := step_of_run_succ hrun
    rw [step_of_nextTurn (.inr ⟨turns ++ after, hscript, rfl⟩), withScript_eq_arrived] at hstep
    have hs := waited_arrived s [] (turns ++ after)
    obtain ⟨hv, hvscript⟩ := waited_of_runEvent ((hwait e List.mem_cons_self).after hs) hfault hstep
    have hsv := hs.trans hv
    obtain ⟨u, hu, huscript, hrun⟩ := ih hvscript (hsv.fault.trans hfault)
      (fun e' he' => (hwait e' (List.mem_cons_of_mem e he')).after hsv) hrun
    exact ⟨u, hsv.trans hu, huscript, hrun⟩

/-! ### A held RES read -/

/-- The command in flight completes at the unit's turn as it would have before the turns that waited: they leave the
latch as it is (R34). -/
theorem step_unit_of_waited {s u u' : State} {v : Word} {ovf ill : Bool}
    (hc : completeCommand s = .next (s.complete v ovf ill)) (hsu : Waited s u) (hturn : unitsTurn u u') :
    step u = .next (u'.complete v ovf ill) := by
  have hnext := (unitsTurn_iff.1 hturn).2
  have hunit : u'.unit = s.unit := hnext.unit_eq.trans hsu.unit
  have hlatch : SameLatch s u' := by
    constructor <;> simp only [hunit, hnext.params_eq, hsu.params]
  rw [step_of_unitsTurn hturn, completeCommand_transfer hlatch hc]

/-- The same, where the host was quiet. -/
theorem step_arrived_unit {s : State} {more : List BusAccess} {turns after : List Event} {v : Word} {ovf ill : Bool}
    (hc : completeCommand s = .next (s.complete v ovf ill))
    (hturn : unitsTurn (s.arrived more turns) (s.arrived more after)) :
    step (s.arrived more turns) = .next ((s.complete v ovf ill).arrived more after) :=
  step_unit_of_waited hc (waited_arrived s more turns) hturn

/-- A RES read waits at the port's head behind a command in flight: before the unit's turn, every turn but a reset
waits. -/
theorem waitingTurn_before {s : State} {dst : Option Name} {rest : List BusAccess}
    (hport : s.host.port = { kind := .read dst, off := 0x18, size := 8 } :: rest) (hbusy : s.unit.status.busy = true)
    {e : Event} (he : e ≠ .unit ∧ e ≠ .reset) : WaitingTurn s e := by
  cases e with
  | unit => exact absurd rfl he.1
  | port => exact ⟨_, rest, hport, hostReg_admitted .res (.read dst), held_read_iff.2 ⟨rfl, hbusy⟩⟩
  | host | issue => trivial
  | reset => exact absurd rfl he.2

/-- Once the command has completed, every turn but the port's and a reset waits. -/
theorem waitingTurn_between {s : State} (hidle : s.unit.status.busy = false) {e : Event}
    (he : e ≠ .port ∧ e ≠ .reset) : WaitingTurn s e := by
  cases e with
  | unit => exact hidle
  | port => exact absurd rfl he.1
  | host | issue => trivial
  | reset => exact absurd rfl he.2

/-- An idle unit's RES read is performed at the port's turn. -/
theorem step_resRead {s s' : State} {dst : Option Name} {rest : List BusAccess} (hturn : portsTurn s s')
    (hport : s.host.port = { kind := .read dst, off := 0x18, size := 8 } :: rest) (hidle : s.unit.status.busy = false) :
    step s = .next { s' with
      host := { s'.host with
        port := rest
        trace := .read 0x18 s.unit.res :: s.host.trace
        names := bindRead s.host.names dst s.unit.res } } :=
  (readsReturnRegisters s s' 0x18 dst rest hturn rfl (by decide) hport).2 (by simp [hidle])

/-- The port's turn behind a completion performs the RES read that `s` held, `more` having come behind it. -/
theorem step_arrived_resRead {s : State} {dst : Option Name} {rest more : List BusAccess} {turns after : List Event}
    {v : Word} {ovf ill : Bool} (hport : s.host.port = { kind := .read dst, off := 0x18, size := 8 } :: rest)
    (hturn : portsTurn ((s.complete v ovf ill).arrived more turns) ((s.complete v ovf ill).arrived more after)) :
    step ((s.complete v ovf ill).arrived more turns) =
      .next (afterHeldRead s (s.complete v ovf ill).unit v dst rest more after) := by
  have hport' : ((s.complete v ovf ill).arrived more turns).host.port =
      { kind := .read dst, off := 0x18, size := 8 } :: (rest ++ more) := by
    simp [State.arrived, hport]
  exact step_resRead hturn hport' rfl

/-- With a quiet host, the read is performed in every laid-down order. -/
theorem run_heldRead {s : State} {dst : Option Name} {rest : List BusAccess} {v : Word} {ovf ill : Bool}
    {before between after : List Event} (hfault : s.host.fault = none) (hbusy : s.unit.status.busy = true)
    (hport : s.host.port = { kind := .read dst, off := 0x18, size := 8 } :: rest)
    (hc : completeCommand s = .next (s.complete v ovf ill))
    (hscript : s.host.script = before ++ .unit :: (between ++ .port :: after))
    (hbefore : ∀ e ∈ before, e ≠ .unit ∧ e ≠ .reset) (hbetween : ∀ e ∈ between, e ≠ .port ∧ e ≠ .reset)
    (hquiet : .host ∈ before ++ between → HostQuiet s) :
    core.run (before.length + (between.length + 1 + 1)) s =
      .next (afterHeldRead s (s.complete v ovf ill).unit v dst rest (issuedBy before ++ issuedBy between) after) := by
  let c := s.complete v ovf ill
  calc core.run (before.length + (between.length + 1 + 1)) s
    _ = core.run (between.length + 1 + 1) (s.arrived (issuedBy before) (.unit :: (between ++ .port :: after))) :=
      run_waiting hscript hfault (fun e he => waitingTurn_before hport hbusy (hbefore e he))
        (fun hhost => hquiet (List.mem_append_left between hhost)) _
    _ = core.run (between.length + 1) (c.arrived (issuedBy before) (between ++ .port :: after)) :=
      run_succ_of_step (step_arrived_unit hc ⟨hbusy, .inr ⟨_, rfl, rfl⟩⟩) _
    _ = core.run 1 (c.arrived (issuedBy before ++ issuedBy between) (.port :: after)) := by
      rw [run_waiting (s := c.arrived (issuedBy before) (between ++ .port :: after)) rfl hfault
        (fun e he => waitingTurn_between rfl (hbetween e he))
        (fun hhost => (hquiet (List.mem_append_right before hhost)).arrived _ _), State.arrived_arrived]
    _ = .next (afterHeldRead s c.unit v dst rest (issuedBy before ++ issuedBy between) after) :=
      run_succ_of_step (step_arrived_resRead hport ⟨hfault, .inr ⟨after, rfl, rfl⟩⟩) 0

/-- With turns laid down that hold none of the unit's, the fixed order completes the command and performs the read (log
entry 5). -/
theorem run_heldRead_fixedOrder {s : State} {dst : Option Name} {rest : List BusAccess} {v : Word} {ovf ill : Bool}
    (hfault : s.host.fault = none) (hbusy : s.unit.status.busy = true)
    (hport : s.host.port = { kind := .read dst, off := 0x18, size := 8 } :: rest)
    (hc : completeCommand s = .next (s.complete v ovf ill))
    (hbefore : ∀ e ∈ s.host.script, e ≠ .unit ∧ e ≠ .reset) (hquiet : .host ∈ s.host.script → HostQuiet s) :
    core.run (s.host.script.length + 2) s =
      .next (afterHeldRead s (s.complete v ovf ill).unit v dst rest (issuedBy s.host.script) []) := by
  let c := s.complete v ovf ill
  calc core.run (s.host.script.length + 2) s
    _ = core.run 2 (s.arrived (issuedBy s.host.script) []) :=
      run_waiting (List.append_nil _).symm hfault (fun e he => waitingTurn_before hport hbusy (hbefore e he)) hquiet _
    _ = core.run 1 (c.arrived (issuedBy s.host.script) []) :=
      run_succ_of_step (step_arrived_unit hc ⟨hbusy, .inl ⟨rfl, rfl⟩⟩) _
    _ = .next (afterHeldRead s c.unit v dst rest (issuedBy s.host.script) []) :=
      run_succ_of_step (step_arrived_resRead hport ⟨hfault, .inl ⟨rfl, rfl, rfl⟩⟩) 0

/-- Whatever lines the host runs, a run that answers a next state has performed the read, with the completion's value. -/
theorem heldRead_of_run {s t : State} {dst : Option Name} {rest : List BusAccess} {v : Word} {ovf ill : Bool}
    {before between after : List Event} (hfault : s.host.fault = none) (hbusy : s.unit.status.busy = true)
    (hport : s.host.port = { kind := .read dst, off := 0x18, size := 8 } :: rest)
    (hc : completeCommand s = .next (s.complete v ovf ill))
    (hscript : s.host.script = before ++ .unit :: (between ++ .port :: after))
    (hbefore : ∀ e ∈ before, e ≠ .unit ∧ e ≠ .reset) (hbetween : ∀ e ∈ between, e ≠ .port ∧ e ≠ .reset)
    (hrun : core.run (before.length + (between.length + 1 + 1)) s = .next t) :
    t.unit = (s.complete v ovf ill).unit ∧ t.host.trace = .read 0x18 v :: s.host.trace ∧
      (∃ more, t.host.port = rest ++ more) ∧ ∀ n, dst = some n → lookupName t.host.names n = some v := by
  obtain ⟨p, hsp, hpscript, hrun⟩ :=
    waited_of_run hscript hfault (fun e he => waitingTurn_before hport hbusy (hbefore e he)) hrun
  let c := s.complete v ovf ill
  let p' := p.arrived [] (between ++ .port :: after)
  have hturn : unitsTurn p p' := ⟨hsp.unit ▸ hbusy, .inr ⟨_, hpscript, (withScript_eq_arrived p _).symm⟩⟩
  rw [run_succ_of_step (step_unit_of_waited hc hsp hturn)] at hrun
  obtain ⟨q, hpq, hqscript, hrun⟩ := waited_of_run (s := p'.complete v ovf ill) rfl (hsp.fault.trans hfault)
    (fun e he => waitingTurn_between rfl (hbetween e he)) hrun
  have hcq : Waited c q := ((hsp.trans (waited_arrived p [] _)).complete v ovf ill).trans hpq
  obtain ⟨more, hmore⟩ := hcq.port
  have hqport : q.host.port = { kind := .read dst, off := 0x18, size := 8 } :: (rest ++ more) := by
    simp [hmore, c, hport]
  have hqidle : q.unit.status.busy = false := by simp [hcq.unit, c]
  have hqres : q.unit.res = v := by simp [hcq.unit, c]
  rw [run_succ_of_step (step_resRead ⟨hcq.fault.trans hfault, .inr ⟨after, hqscript, rfl⟩⟩ hqport hqidle)] at hrun
  cases hrun
  refine ⟨hcq.unit, by simp [hqres, hcq.trace, c], ⟨more, rfl⟩, ?_⟩
  rintro n rfl
  exact hqres ▸ lookupName_bindName q.host.names n _

/-- Settles O53: the turns before the unit's and between it and the port's wait, the unit's completes the command, and the
port's performs the read. -/
theorem heldReadReturnsResult : Obligations.HeldReadReturnsResult := by
  intro s dst rest hfault hbusy hport
  obtain ⟨v, ovf, ill, hc⟩ := completeCommand_complete s
  refine ⟨s.complete v ovf ill, hc, fun before between after hscript hbefore hbetween => ?_, ?_⟩
  · rw [Nat.add_assoc]
    exact ⟨run_heldRead hfault hbusy hport hc hscript hbefore hbetween,
      fun t hrun => heldRead_of_run hfault hbusy hport hc hscript hbefore hbetween hrun⟩
  · rintro before rfl hbefore hquiet
    exact run_heldRead_fixedOrder hfault hbusy hport hc hbefore hquiet

end Sys2Proof.Machine

/-! ## Proofs of the encoding statements: command words, operands and results, host programs (30_encoding.md) -/

namespace Sys2Proof.Machine

open Sys2Proof.Spec

/-! ### The fields of a command word (R81) -/

theorem fieldOp_toNat (c : Word) : (fieldOp c).toNat = c.toNat % 256 := by
  simp [fieldOp]

theorem fieldWid_toNat (c : Word) : (fieldWid c).toNat = c.toNat / 256 % 4 := by
  simp [fieldWid, Nat.shiftRight_eq_div_pow]

theorem fieldSgn_toNat (c : Word) : (fieldSgn c).toNat = c.toNat / 1024 % 2 := by
  rw [fieldSgn, BitVec.getLsbD, Nat.toNat_testBit]

theorem fieldRsv_eq_zero_iff (c : Word) : fieldRsv c = 0 ↔ c.toNat / 2048 = 0 := by
  have hlt : c.toNat / 2 ^ 11 < 2 ^ 53 := by have := c.isLt; omega
  rw [← BitVec.toNat_inj, fieldRsv, BitVec.extractLsb'_toNat, Nat.shiftRight_eq_div_pow, Nat.mod_eq_of_lt hlt]
  rfl

@[simp] theorem codeOfWidth_widthOfCode (k : BitVec 2) : codeOfWidth (widthOfCode k) = k.toNat := by
  revert k
  decide

theorem widthOfCode_eq_w64_iff (k : BitVec 2) : widthOfCode k = .w64 ↔ k.toNat = 3 := by
  revert k
  decide

theorem codeOfWidth_lt (w : Width) : codeOfWidth w < 4 := by
  cases w <;> decide

/-- The fields of a packed word stand at their places (R81). -/
theorem packWord_toNat {op : Nat} (hop : op < 256) (sgn : Bool) (w : Width) :
    (packWord op sgn w).toNat = op + codeOfWidth w * 256 + sgn.toNat * 1024 := by
  have hcode := codeOfWidth_lt w
  have hsgn := sgn.toNat_lt
  rw [packWord, BitVec.toNat_ofNat]
  omega

/-- Reserved bits at 0, a command word is packed from its other fields: no bit is dropped (R81). -/
theorem eq_packWord_of_fields {c : Word} (hrsv : fieldRsv c = 0) :
    c = packWord (fieldOp c).toNat (fieldSgn c) (widthOfCode (fieldWid c)) := by
  rw [fieldRsv_eq_zero_iff] at hrsv
  refine BitVec.eq_of_toNat_eq ?_
  rw [packWord_toNat (fieldOp c).isLt, codeOfWidth_widthOfCode, fieldOp_toNat, fieldWid_toNat, fieldSgn_toNat]
  omega

section PackedFields

/-! The fields of a packed word are the ones it was packed from. -/

variable {op : Nat} (hop : op < 256) (sgn : Bool) (w : Width)

include hop

theorem fieldOp_packWord : (fieldOp (packWord op sgn w)).toNat = op := by
  rw [fieldOp_toNat, packWord_toNat hop]
  omega

theorem fieldSgn_packWord : fieldSgn (packWord op sgn w) = sgn := by
  have hcode := codeOfWidth_lt w
  have hsgn := sgn.toNat_lt
  rw [Bool.eq_iff_iff, ← Bool.toNat_eq_one, ← Bool.toNat_eq_one, fieldSgn_toNat, packWord_toNat hop]
  omega

theorem fieldWid_packWord : (fieldWid (packWord op sgn w)).toNat = codeOfWidth w := by
  have hcode := codeOfWidth_lt w
  rw [fieldWid_toNat, packWord_toNat hop]
  omega

theorem fieldRsv_packWord : fieldRsv (packWord op sgn w) = 0 := by
  have hcode := codeOfWidth_lt w
  have hsgn := sgn.toNat_lt
  rw [fieldRsv_eq_zero_iff, packWord_toNat hop]
  omega

theorem widthOfCode_fieldWid_packWord : widthOfCode (fieldWid (packWord op sgn w)) = w := by
  unfold widthOfCode
  rw [fieldWid_packWord hop]
  cases w <;> rfl

end PackedFields

/-! ### Decoding inverts encoding (R81, R88) -/

/-- A word that decodes is the word of its instruction (R81, R88). -/
theorem encode_of_decode {c : Word} {i : Instr} (h : decode c = some i) : encode i = c := by
  unfold decode at h
  split at h
  case isFalse => cases h
  case isTrue hrsv =>
    rw [eq_packWord_of_fields hrsv]
    dsimp only at h
    split at h
    case h_3 hop hsgn | h_4 hop hsgn => -- POWX and BINOM, of width 64 alone
      obtain ⟨hw, hi⟩ := Option.ite_none_right_eq_some.1 h
      cases hi
      rw [hop, hsgn, hw, encode]
    case h_13 => cases h -- no row of R88
    all_goals
      rename_i hop hsgn
      cases h
      rw [hop, hsgn, encode]

/-- Settles O1: a word that decodes is its instruction's word, and that word decodes to the instruction. -/
theorem decodeInvertsEncode : Obligations.DecodeInvertsEncode := by
  intro c i
  refine ⟨fun h => (encode_of_decode h).symm, ?_⟩
  rintro rfl
  exact decode_encode i

/-- Settles O3, word by word. -/
theorem sampleWordsDecode : Obligations.SampleWordsDecode := by
  unfold Obligations.SampleWordsDecode
  decide

/-! ### Legality (R89) -/

/-- R89 as printed is the decoder's own condition, with SQRTX only where the unit has it. -/
theorem legal_eq_any_wellFormed (p : Params) (c : Word) :
    legal p.hasSqrtx c = (decode c).any (·.wellFormed p) := by
  by_cases hrsv : fieldRsv c = 0
  · simp only [legal, decode, hrsv, decide_true, Bool.true_and, if_true]
    split <;> rename_i hop
    case h_3 | h_4 => -- POWX and BINOM, of width 64 alone
      simp only [hop, ← widthOfCode_eq_w64_iff]
      cases fieldSgn c <;> by_cases hw : widthOfCode (fieldWid c) = .w64 <;> simp [hw, Instr.wellFormed]
    case h_12 => -- an opcode of no row
      split
      case h_13 => rfl
      all_goals contradiction
    all_goals
      simp only [hop]
      cases fieldSgn c <;> simp [Instr.wellFormed]
  · simp only [legal, decode, hrsv]
    rfl

/-- A word is legal exactly when it decodes to a command the unit has. -/
theorem legal_iff_decode (p : Params) (c : Word) :
    legal p.hasSqrtx c = true ↔ ∃ i, decode c = some i ∧ i.wellFormed p = true := by
  rw [legal_eq_any_wellFormed]
  exact Option.any_eq_true _ _

/-! ### The printed words (R91) -/

/-- The widths in the order of R91. -/
def allWidths : List Width := [.w8, .w16, .w32, .w64]

@[simp] theorem mem_allWidths (w : Width) : w ∈ allWidths := by
  cases w <;> decide

/-- The instructions every unit has, in the order of R91. -/
def baseInstrs : List Instr :=
  allWidths.map .abs ++ allWidths.map .pow ++ [.powx, .binom] ++ allWidths.map .flog2 ++ allWidths.map .clog2 ++
    allWidths.map .flog10 ++ allWidths.map .clog10 ++ allWidths.map .lenU ++ allWidths.map .lenS ++
    allWidths.map .sqrt

/-- The instructions of a unit with HAS_SQRTX as given (R89). -/
def unitInstrs (hasSqrtx : Bool) : List Instr :=
  baseInstrs ++ if hasSqrtx then allWidths.map .sqrtx else []

/-- `unitInstrs` lists the commands the unit has. -/
theorem wellFormed_iff_mem (p : Params) (i : Instr) : i.wellFormed p = true ↔ i ∈ unitInstrs p.hasSqrtx := by
  cases i with
  | sqrtx w => cases h : p.hasSqrtx <;> simp [Instr.wellFormed, unitInstrs, baseInstrs, h]
  | _ => simp [Instr.wellFormed, unitInstrs, baseInstrs]

/-- The words of a unit's commands are those R91 prints, in its order. -/
theorem map_encode_unitInstrs (hasSqrtx : Bool) :
    (unitInstrs hasSqrtx).map (fun i => (encode i).toNat) = legalWords ++ if hasSqrtx then sqrtxWords else [] := by
  cases hasSqrtx <;> rfl

theorem legal_iff_mem_printed (hasSqrtx : Bool) (c : Word) :
    legal hasSqrtx c = true ↔ c.toNat ∈ legalWords ++ if hasSqrtx then sqrtxWords else [] := by
  rw [legal_iff_decode { Params.simulator with hasSqrtx }, ← map_encode_unitInstrs, List.mem_map]
  refine exists_congr fun i => ?_
  rw [wellFormed_iff_mem, decodeInvertsEncode c i, BitVec.toNat_inj, and_comm, eq_comm]

/-- Settles O2: the legal words are the words of the commands the unit has. -/
theorem legalWordsAreThePrinted : Obligations.LegalWordsAreThePrinted :=
  ⟨legal_iff_mem_printed true, fun c => by simpa using legal_iff_mem_printed false c, rfl, by decide⟩

/-! ### Illegal words (R90) -/

/-- The four kinds of R90 are together the words that R89 does not make legal. -/
theorem illegalWord_iff (hasSqrtx : Bool) (c : Word) :
    illegalWord hasSqrtx c.toNat ↔ legal hasSqrtx c = false := by
  simp only [illegalWord, illegalFields, ← fieldOp_toNat, ← fieldWid_toNat, ← fieldSgn_toNat, legal,
    fieldRsv_eq_zero_iff]
  by_cases hrsv : c.toNat / 2048 = 0
  · split <;> rename_i hop
    case h_12 => -- an opcode of no row
      simp only [imp_false] at *
      have hmap : (fieldOp c).toNat = 0 ∨ 12 ≤ (fieldOp c).toNat := by omega
      simp [hmap]
    all_goals
      cases fieldSgn c <;> simp [hop, hrsv]
  · simp [hrsv]

/-- A command the unit has never sets ILL (R224). -/
theorem exec_of_wellFormed {i : Instr} {s : State} (h : i.wellFormed s.params = true) :
    ∃ v ovf, exec i s = .next (s.complete v ovf false) := by
  obtain ⟨v, ovf, ill, hexec⟩ := exec_complete i s
  cases ill with
  | false => exact ⟨v, ovf, hexec⟩
  | true =>
    obtain ⟨-, w, rfl, hx⟩ := (exec_flags hexec).2 rfl
    exact absurd h (by simp [Instr.wellFormed, hx])

/-- A command the unit does not have, SQRTX with HAS_SQRTX = 0, is reported as illegal (R90, R205). -/
theorem exec_of_not_wellFormed {i : Instr} {s : State} (h : i.wellFormed s.params = false) :
    exec i s = s.completeIllegal := by
  cases i with
  | sqrtx w => exact if_neg (by simpa [Instr.wellFormed] using h)
  | _ => cases h

theorem completeCommand_of_legal {s : State} (h : legal s.params.hasSqrtx s.unit.curCmd = true) :
    ∃ v ovf, completeCommand s = .next (s.complete v ovf false) := by
  obtain ⟨i, hd, hwf⟩ := (legal_iff_decode s.params s.unit.curCmd).1 h
  rw [completeCommand_of_decode hd]
  exact exec_of_wellFormed hwf

theorem completeCommand_of_not_legal {s : State} (h : legal s.params.hasSqrtx s.unit.curCmd = false) :
    completeCommand s = s.completeIllegal := by
  rw [legal_eq_any_wellFormed] at h
  cases hd : decode s.unit.curCmd with
  | none => exact completeCommand_of_illegal hd
  | some i =>
    rw [completeCommand_of_decode hd]
    exact exec_of_not_wellFormed (by simpa [hd] using h)

/-- Settles O4: the step is a completion, whose ILL says whether the latched word is legal. -/
theorem illegalWordIsReported : Obligations.IllegalWordIsReported := by
  intro s s' hturn
  obtain ⟨-, hnext⟩ := unitsTurn_iff.1 hturn
  rw [step_of_unitsTurn hturn, illegalWord_iff, ← hnext.params_eq, ← hnext.unit_eq]
  exact ⟨completeCommand_of_not_legal, fun h => completeCommand_of_legal (Bool.eq_true_of_not_eq_false h)⟩

/-! ### Operands and results (R86, R87) -/

theorem toNat_lowBits (w : Width) (x : Word) : (lowBits w x).toNat = low w x :=
  BitVec.toNat_setWidth _ _

theorem lowBits_eq_iff (w : Width) (x y : Word) : lowBits w x = lowBits w y ↔ low w x = low w y := by
  rw [← BitVec.toNat_inj, toNat_lowBits, toNat_lowBits]

/-- RES and STATUS depend on the latched operands through their low W bits alone (R86). -/
theorem exec_transfer_operands {i : Instr} {s : State} {a b : Word}
    (hA : lowBits (widthOf i) a = operandA (widthOf i) s) (hB : lowBits (widthOf i) b = operandB (widthOf i) s)
    {v : Word} {ovf ill : Bool} (hs : exec i s = .next (s.complete v ovf ill)) :
    exec i { s with unit := { s.unit with curA := a, curB := b } } =
      .next (State.complete { s with unit := { s.unit with curA := a, curB := b } } v ovf ill) := by
  cases i with
  | sqrtx w =>
    simp only [widthOf] at hA
    simp only [exec, execSqrtx, ← hA] at hs ⊢
    split at hs
    case isTrue hx => rw [if_pos hx]; exact finish_transfer hs _
    case isFalse hx => rw [if_neg hx]; exact completeIllegal_transfer hs _
  | _ =>
    simp only [widthOf] at hA hB
    simp only [exec, execAbs, execPow, execPowx, execBinom, execFlog2, execClog2, execFlog10, execClog10, execLenU,
      execLenS, execSqrt, ← hA, ← hB] at hs ⊢
    exact finish_transfer hs _

/-- Settles O35: latched operands of the same low bits give the same operands. -/
theorem highOperandBitsIgnored : Obligations.HighOperandBitsIgnored := by
  intro i s a b ha hb
  obtain ⟨v, ovf, ill, hs⟩ := exec_complete i s
  exact ⟨v, ovf, ill, hs, exec_transfer_operands ((lowBits_eq_iff ..).2 ha) ((lowBits_eq_iff ..).2 hb) hs⟩

/-- A placed result fits its width (R87). -/
theorem place_lt (w : Width) (x : BitVec w.bits) : (place x).toNat < 2 ^ w.bits := by
  have hw : w.bits ≤ 64 := by cases w <;> decide
  rw [place, BitVec.toNat_setWidth_of_le hw]
  exact x.isLt

theorem exec_result_lt {i : Instr} {s : State} {v : Word} {ovf ill : Bool}
    (h : exec i s = .next (s.complete v ovf ill)) : v.toNat < 2 ^ (widthOf i).bits := by
  cases i with
  | sqrtx w =>
    simp only [exec, execSqrtx] at h
    split at h
    case isTrue =>
      obtain ⟨rfl, -, -⟩ := finish_inv h
      exact place_lt w _
    case isFalse =>
      obtain ⟨rfl, -, -⟩ := completeIllegal_inv h
      exact Nat.two_pow_pos _
  | powx | binom =>
    obtain ⟨rfl, -, -⟩ := finish_inv h
    exact place_lt .w64 _
  | _ =>
    obtain ⟨rfl, -, -⟩ := finish_inv h
    exact place_lt _ _

/-- Settles O36: a result is a placed W-bit value, or 0. -/
theorem resultIsZeroExtended : Obligations.ResultIsZeroExtended := by
  intro i s
  obtain ⟨v, ovf, ill, h⟩ := exec_complete i s
  exact ⟨v, ovf, ill, h, exec_result_lt h⟩

/-! ### The assembler (R93, R97) -/

theorem Mnemonic.opcode_lt (m : Mnemonic) : m.opcode < 256 := by
  cases m <;> decide

/-- A packed word decodes to the instruction its spelling names; `flog10p1` with `s` packs the word of `len` with `s`
(log entry 17). -/
theorem decode_packWord {m : Mnemonic} {signed : Bool} (h : ¬(m = .flog10p1 ∧ signed = true)) (w : Width) :
    decode (packWord m.opcode signed w) = spelled m signed w := by
  have hop := m.opcode_lt
  simp only [decode, fieldRsv_packWord hop, fieldOp_packWord hop, fieldSgn_packWord hop,
    widthOfCode_fieldWid_packWord hop, if_true]
  cases m with
  | powx | binom => cases signed <;> cases w <;> rfl
  | flog10p1 =>
    cases signed with
    | false => rfl
    | true => exact absurd ⟨rfl, rfl⟩ h
  | _ => cases signed <;> rfl

/-- The assembler's check is the decoder's reading: the word of the instruction, where the unit has it. -/
theorem assemble_eq_encode (p : Params) {sp : Spelling} (h : ¬(sp.mnemonic = .flog10p1 ∧ sp.signed = true)) :
    assemble p sp =
      ((spelled sp.mnemonic sp.signed (sp.width.resolve p)).filter (·.wellFormed p)).map encode := by
  have hd := decode_packWord h (sp.width.resolve p)
  simp only [assemble, legal_eq_any_wellFormed, hd, h]
  cases hi : spelled sp.mnemonic sp.signed (sp.width.resolve p) with
  | none => rfl
  | some i =>
    rw [← encode_of_decode (hd.trans hi)]
    cases hwf : i.wellFormed p <;> simp [hwf]

theorem assemble_flog10p1_signed (p : Params) (width : SpelledWidth) :
    assemble p { mnemonic := .flog10p1, signed := true, width } = none := by
  simp [assemble]

theorem assemble_native (p : Params) (m : Mnemonic) (signed : Bool) :
    assemble p { mnemonic := m, signed, width := .native } =
      assemble p { mnemonic := m, signed, width := .bits p.native.toWidth } := rfl

/-- Settles O59: the assembler is the decoder's reading of the packed word, but for `flog10p1` with `s`. -/
theorem assemblerSpellsInstructions : Obligations.AssemblerSpellsInstructions := by
  intro p m signed w
  constructor
  · by_cases h : m = .flog10p1 ∧ signed = true
    · obtain ⟨rfl, rfl⟩ := h
      rw [assemble_flog10p1_signed]
      rfl
    · exact assemble_eq_encode p (sp := { mnemonic := m, signed, width := .bits w }) h
  · rw [assemble_native]
    cases p.native <;> rfl

/-! ### The pseudo-instructions (R95, R96) -/

theorem readsOpb_iff (m : Mnemonic) : m.readsOpb = true ↔ m = .pow ∨ m = .powx ∨ m = .binom := by
  cases m <;> decide

theorem callLines_of_refused {p : Params} {sp : Spelling} (h : assemble p sp = none) (a : HostValue)
    (b : Option HostValue) (res st : Name) : callLines p sp a b res st = none := by
  simp [callLines, cmdLine, h]

theorem callLines_of_assembled {p : Params} {sp : Spelling} {c : Word} (h : assemble p sp = some c) (a : HostValue)
    (b : Option HostValue) (res st : Name) :
    callLines p sp a b res st = (opbLines sp.mnemonic b).map fun loadB =>
      [.wr .opa a] ++ loadB ++ [.wr .cmd (.imm c), .rd .res res, .rd .status st] := by
  simp only [callLines, cmdLine, h]
  cases opbLines sp.mnemonic b <;> rfl

/-- Settles O60: the lines of `call` are those of its command, with `wr OPB` as `opbLines` says. -/
theorem pseudoInstructionsExpand : Obligations.PseudoInstructionsExpand := by
  refine ⟨fun p sp a res st => ⟨fun h b => callLines_of_refused h a b res st, fun c h => ?_⟩, fun _ _ _ => rfl⟩
  refine ⟨fun b => ?_, fun hone => ?_, fun htwo => ?_⟩ <;> rw [callLines_of_assembled h]
  · rfl
  · have hreads : sp.mnemonic.readsOpb = false := by
      rw [Bool.eq_false_iff, ne_eq, readsOpb_iff]
      tauto
    simp [opbLines, hreads]
  · simp [opbLines, (readsOpb_iff sp.mnemonic).2 htwo]

/-! ### The lines of a host program (R94) -/

/-- The host's turn of the statements is the turn `.host`, of a host without a fault. -/
theorem nextTurn_of_hostsTurn {s s' : State} (h : hostsTurn s s') : s.host.fault = none ∧ NextTurn s .host s' := by
  refine h.imp_right (Or.imp_left ?_)
  rintro ⟨hscript, hidle, hport, hpc, rfl⟩
  exact ⟨hscript, by simp [defaultEvent, hidle, hport, hpc], rfl⟩

/-- At the host's turn, laid down or of the fixed order, the step is the host's turn in `s` with the turns left. -/
theorem step_of_hostsTurn {s s' : State} (h : hostsTurn s s') :
    (∃ turns, s' = { s with host := { s.host with script := turns } }) ∧ step s = hostTurn s' := by
  obtain ⟨hfault, hturn⟩ := nextTurn_of_hostsTurn h
  obtain ⟨turns, rfl⟩ := hturn.eq_withScript
  exact ⟨⟨turns, rfl⟩, by simp [step_of_nextTurn hturn, runEvent, hostMove, hfault]⟩

theorem withName_bound {s : State} {n : Name} {v : Word} (h : lookupName s.host.names n = some v) (k : Word → Move) :
    s.withName n k = k v := by
  simp [State.withName, h]

theorem withName_unbound {s : State} {n : Name} (h : lookupName s.host.names n = none) (k : Word → Move) :
    s.withName n k = .refused (.unboundName n) := by
  simp [State.withName, h]

/-- A step that goes to a label branches to the label's first line, or is refused (log entry 13). -/
theorem branchesTo_of_step {s s' : State} {l : Name} (hprogram : s'.host.program = s.host.program)
    (hstep : step s = s'.gotoLabel l) : branchesTo s s' l := by
  rw [branchesTo, hstep, ← hprogram]
  refine ⟨fun k hk hfirst => ?_, fun hno => ?_⟩
  · simp [State.gotoLabel, findLabel_eq_some hk hfirst]
  · simp [State.gotoLabel, findLabel_eq_none hno]

/-- A host that does not wait runs the line it stands at, in the state its turn is taken in. -/
theorem step_runsLine {s s' : State} (hturn : hostsTurn s s') (hno : ¬namedReadAtPort s) {line : HostLine}
    (hline : s.host.program[s.host.pc]? = some line) : step s = s'.runLine line := by
  obtain ⟨⟨turns, rfl⟩, hstep⟩ := step_of_hostsTurn hturn
  rw [hstep]
  exact hostTurn_line (Bool.eq_false_iff.2 (mt (awaitsRead_iff s.host).1 hno)) hline

/-- A line that reads a name goes on with its value when it is bound, and is refused otherwise (log entry 13). -/
theorem step_readsName {s s' : State} {n : Name} {k : Word → Move} (hstep : step s = s'.withName n k) :
    (∀ v, lookupName s'.host.names n = some v → step s = k v) ∧
      (lookupName s'.host.names n = none → step s = .refused (.unboundName n)) :=
  ⟨fun _ hv => hstep.trans (withName_bound hv k), fun hn => hstep.trans (withName_unbound hn k)⟩

/-- Settles O58: a host that waits or has no line left is quiet, and otherwise the step is its line's meaning. -/
theorem hostLinesActAsSpelled : Obligations.HostLinesActAsSpelled := by
  intro s s' hturn
  obtain ⟨⟨turns, rfl⟩, hstep⟩ := step_of_hostsTurn hturn
  refine ⟨fun hread => hstep.trans (hostTurn_quiet (.inl ((awaitsRead_iff s.host).2 hread))), fun hno => ?_⟩
  have runs {line : HostLine} := step_runsLine (line := line) hturn hno
  refine ⟨fun hend => hstep.trans (hostTurn_quiet (.inr hend)), ?wrImm, ?wrName, ?rd, ?andi, ?addi, ?set, ?label,
    ?beqz, ?bnez, ?jmp⟩
  case wrImm => exact fun r v h => runs h
  case rd => exact fun r n h => runs h
  case set => exact fun n x h => runs h
  case label => exact fun l h => runs h
  case wrName => exact fun r n h => step_readsName (runs h)
  case andi | addi => exact fun n m x h => step_readsName (runs h)
  case jmp => exact fun l h => branchesTo_of_step rfl (runs h)
  case beqz =>
    intro n l h
    obtain ⟨hbound, hunbound⟩ := step_readsName (runs h)
    exact ⟨fun v hv => ⟨fun hne => (hbound v hv).trans (if_neg hne),
      fun h0 => branchesTo_of_step rfl ((hbound v hv).trans (if_pos h0))⟩, hunbound⟩
  case bnez =>
    intro n l h
    obtain ⟨hbound, hunbound⟩ := step_readsName (runs h)
    exact ⟨fun v hv => ⟨fun h0 => (hbound v hv).trans (if_pos h0),
      fun hne => branchesTo_of_step rfl ((hbound v hv).trans (if_neg hne))⟩, hunbound⟩

end Sys2Proof.Machine

/-! ## Proofs of the statements about ABS (40_abs.md) -/

namespace Sys2Proof.Machine

open Sys2Proof.Spec

/-! ### The datapath (R110) -/

/-- The mask of R110: the arithmetic shift spreads the sign bit over the whole word. -/
theorem sshiftRight_pred_eq_fill {n : Nat} (a : BitVec n) : a.sshiftRight (n - 1) = BitVec.fill n a.msb := by
  ext i hi
  rw [BitVec.getElem_sshiftRight, BitVec.getElem_fill, BitVec.msb_eq_getLsbD_last]
  split
  case isTrue hlt =>
    obtain rfl : i = 0 := by omega
    exact (BitVec.getLsbD_eq_getElem hlt).symm
  case isFalse => rfl

/-- Where the mask is all ones, the datapath is NOT(a - 1) = -a; where it is all zeros, it is a. -/
theorem absDatapath_eq_abs {n : Nat} (a : BitVec n) : absDatapath a = a.abs := by
  simp only [absDatapath, sshiftRight_pred_eq_fill, BitVec.abs_eq]
  cases a.msb with
  | false => simp [BitVec.fill]
  | true =>
    calc (a + -1#n) ^^^ -1#n = ~~~(a - 1#n) := by
          rw [← BitVec.sub_eq_add_neg, BitVec.neg_one_eq_allOnes, BitVec.xor_allOnes]
      _ = -a := by rw [← BitVec.not_neg, BitVec.not_not]

/-- As an unsigned number, the absolute value of `a` is |sint_W(a)|, the minimum included. -/
theorem toNat_abs_eq_natAbs {n : Nat} (a : BitVec n) : a.abs.toNat = a.toInt.natAbs := by
  have hlt := a.isLt
  rw [BitVec.toNat_abs, BitVec.toInt_eq_msb_cond]
  split <;> omega

/-! ### The operand and the result in the vocabulary of the statements (R10, R86, R87) -/

theorem bits_pos (w : Width) : 0 < w.bits := by cases w <;> decide

theorem slow_eq_toInt (w : Width) (x : Word) : slow w x = (lowBits w x).toInt := by
  have hsign : 2 * low w x < 2 ^ w.bits ↔ low w x < 2 ^ (w.bits - 1) := by
    rw [← Nat.two_pow_pred_add_two_pow_pred (bits_pos w)]
    omega
  simp [slow, BitVec.toInt_eq_toNat_cond, toNat_lowBits, hsign]

theorem lowBits_place (w : Width) (v : BitVec w.bits) : lowBits w (place v) = v := by
  have hw : w.bits ≤ 64 := by cases w <;> decide
  rw [lowBits, place, BitVec.setWidth_setWidth_of_le _ hw, BitVec.setWidth_eq]

theorem lowBits_eq_intMin_iff (w : Width) (x : Word) :
    lowBits w x = BitVec.intMin w.bits ↔ low w x = 2 ^ (w.bits - 1) := by
  rw [← BitVec.toNat_inj, toNat_lowBits, BitVec.toNat_intMin_of_pos (bits_pos w)]

/-- What abs.sW leaves: the absolute value placed in RES, DONE alone in STATUS, the rest as it was (R110). -/
theorem exec_abs (w : Width) (s : State) :
    exec (.abs w) s = .next (doneWith s (place (lowBits w s.unit.curA).abs) false false) := by
  rw [← absDatapath_eq_abs]
  rfl

/-! ### The statements -/

/-- Settles O7: the datapath is the library's `abs`, whose unsigned value is |sint_W(a)|. -/
theorem absGivesMagnitude : Obligations.AbsGivesMagnitude := by
  refine ⟨fun w => by cases w <;> decide, fun w s => ?_⟩
  rw [exec_abs, slow_eq_toInt, ← toNat_abs_eq_natAbs, Nat.mod_eq_of_lt (BitVec.isLt _), BitVec.ofNat_toNat, place]

/-- Settles O8: the minimum is its own absolute value. -/
theorem absOfMinimumWraps : Obligations.AbsOfMinimumWraps := by
  intro w s hmin
  rw [exec_abs, (lowBits_eq_intMin_iff w _).2 hmin, BitVec.abs_intMin, ← BitVec.toNat_intMin_of_pos (bits_pos w),
    BitVec.ofNat_toNat, place]

/-- Settles O9: the placed result reads back as the absolute value: any operand but the minimum has one that
fits W signed bits. -/
theorem absReadsAsAbsoluteValue : Obligations.AbsReadsAsAbsoluteValue := by
  intro w s hmin
  refine ⟨_, exec_abs w s, ?_⟩
  have habs := BitVec.toInt_abs_eq_natAbs_of_ne_intMin (mt (lowBits_eq_intMin_iff w _).1 hmin)
  rw [slow_eq_toInt, lowBits_place, habs, ← slow_eq_toInt]
  split <;> omega

end Sys2Proof.Machine

/-! ## Proofs of the statements about POW and POWX (41_pow.md) -/

namespace Sys2Proof.Machine

open Sys2Proof.Spec

/-! ### POW: the power modulo 2^W (R120, R121) -/

/-- One turn of squaring takes the low bit off the exponent. -/
theorem mul_pow_eq_mul_sq_pow_half (r b e : Nat) : r * b ^ e = r * b ^ (e % 2) * (b * b) ^ (e / 2) := by
  rw [← pow_two, ← pow_mul, mul_assoc, ← pow_add, Nat.mod_add_div]

/-- The loop's invariant: result times base to the remaining exponent is the power, modulo m. The fuel is enough where
the exponent has no more bits than it. -/
theorem powLoop_modEq (m fuel result base e : Nat) (he : e < 2 ^ fuel) :
    powLoop m fuel result base e ≡ result * base ^ e [MOD m] := by
  fun_induction powLoop with
  | case1 base e result => -- no fuel is left, so the exponent is 0
    obtain rfl : e = 0 := by simpa using he
    simp [Nat.ModEq.refl]
  | case2 => simp [Nat.ModEq.refl] -- the exponent is used up
  | case3 fuel result base e _ ih => -- the loop goes on
    have hresult : (if e % 2 = 1 then (result * base) % m else result) ≡ result * base ^ (e % 2) [MOD m] := by
      split
      case isTrue hodd => simpa [hodd] using Nat.mod_modEq _ m
      case isFalse heven => simp [Nat.mod_two_ne_one.1 heven, Nat.ModEq.refl]
    rw [mul_pow_eq_mul_sq_pow_half]
    exact (ih (by omega)).trans (hresult.mul ((Nat.mod_modEq _ m).pow _))

/-- W iterations are enough for an exponent of W bits (R120, R263). -/
theorem powDatapath_eq_ofNat {n : Nat} (a b : BitVec n) : powDatapath a b = BitVec.ofNat n (a.toNat ^ b.toNat) := by
  rw [powDatapath, ← BitVec.toNat_inj, BitVec.toNat_ofNat, BitVec.toNat_ofNat, powLoop_modEq (2 ^ n) n 1 _ _ b.isLt,
    one_mul]

theorem place_ofNat (n x : Nat) : place (BitVec.ofNat n x) = BitVec.ofNat 64 (x % 2 ^ n) := by
  rw [place, ← BitVec.ofNat_toNat, BitVec.toNat_ofNat]

/-- What pow.uW leaves: the power modulo 2^W in RES, DONE alone in STATUS, the rest as it was (R120). -/
theorem exec_pow (w : Width) (s : State) :
    exec (.pow w) s =
      .next (doneWith s (BitVec.ofNat 64 (low w s.unit.curA ^ low w s.unit.curB % 2 ^ w.bits)) false false) := by
  rw [← toNat_lowBits, ← toNat_lowBits, ← place_ofNat, ← powDatapath_eq_ofNat]
  rfl

/-- Settles O10: the loop's invariant gives the power modulo 2^W. -/
theorem powIsPowerModWidth : Obligations.PowIsPowerModWidth :=
  ⟨fun w => by cases w <;> decide, exec_pow⟩

/-- Settles O11: the power modulo 2^W is 1 at exponent 0, and for base 2 the power itself below 2^W and 0 from
there on. -/
theorem powOfTwoShifts : Obligations.PowOfTwoShifts := by
  intro w s
  rw [exec_pow]
  refine ⟨fun hexp => ?_, fun hbase hk => ?_, fun hbase hk => ?_⟩
  · rw [hexp, pow_zero, Nat.mod_eq_of_lt (Nat.one_lt_two_pow (bits_pos w).ne')]
    rfl
  · rw [hbase, Nat.mod_eq_of_lt (Nat.pow_lt_pow_right one_lt_two hk)]
  · rw [hbase, Nat.mod_eq_zero_of_dvd (pow_dvd_pow 2 hk)]
    rfl

/-! ### The double-width product (R12) -/

theorem mul128_high_eq_zero_iff (a b : Word) : (mul128 a b).1 = 0 ↔ a.toNat * b.toNat < 2 ^ 64 := by
  have hlt : a.toNat * b.toNat < 2 ^ 64 * 2 ^ 64 := Nat.mul_lt_mul'' a.isLt b.isLt
  rw [mul128, ← BitVec.toNat_inj, BitVec.toNat_ofNat, Nat.mod_eq_of_lt (Nat.div_lt_of_lt_mul hlt)]
  simp

theorem mul128_low_toNat {a b : Word} (h : a.toNat * b.toNat < 2 ^ 64) : (mul128 a b).2.toNat = a.toNat * b.toNat := by
  rw [mul128, BitVec.toNat_ofNat, Nat.mod_eq_of_lt h]

/-! ### POWX: the checked loop meets the contract (R125, R126) -/

/-- The contract of R125 for an exact value P: P itself where it fits 64 bits, 0 with OVF = 1 otherwise. -/
def checkedWord (p : Nat) : Word × Bool := if p > 2 ^ 64 - 1 then (0, true) else (BitVec.ofNat 64 p, false)

theorem checkedWord_of_le {p : Nat} (h : 2 ^ 64 ≤ p) : checkedWord p = (0, true) := if_pos (by omega)

theorem checkedWord_toNat (x : Word) : checkedWord x.toNat = (x, false) := by
  rw [checkedWord, if_neg (by have := x.isLt; omega), BitVec.ofNat_toNat, BitVec.setWidth_eq]

/-- The product of one turn of R126, taken where the exponent is odd, is the one with the base to the low exponent
bit. -/
theorem powxProduct_high_eq_zero_iff (result base : Word) (e : Nat) :
    (if e % 2 = 1 then mul128 result base else (0, result)).1 = 0 ↔
      result.toNat * base.toNat ^ (e % 2) < 2 ^ 64 := by
  split
  case isTrue hodd => rw [mul128_high_eq_zero_iff, hodd, pow_one]
  case isFalse heven => simp [Nat.mod_two_ne_one.1 heven, result.isLt]

theorem powxProduct_low_toNat {result base : Word} {e : Nat} (h : result.toNat * base.toNat ^ (e % 2) < 2 ^ 64) :
    (if e % 2 = 1 then mul128 result base else (0, result)).2.toNat = result.toNat * base.toNat ^ (e % 2) := by
  split
  case isTrue hodd => rw [hodd, pow_one] at h ⊢; exact mul128_low_toNat h
  case isFalse heven => simp [Nat.mod_two_ne_one.1 heven]

/-- A product that overflows shows that the power does: the squares still to come are not 0. -/
theorem le_pow_of_product_overflow {r b e : Nat} (hr : r < 2 ^ 64) (h : 2 ^ 64 ≤ r * b ^ (e % 2)) :
    2 ^ 64 ≤ r * b ^ e := by
  rw [mul_pow_eq_mul_sq_pow_half]
  rcases Nat.eq_zero_or_pos b with rfl | hb
  · exact absurd h (Nat.not_le.2 ((mul_le_of_le_one_right r.zero_le (pow_le_one₀ le_rfl zero_le_one)).trans_lt hr))
  · exact h.trans (Nat.le_mul_of_pos_right _ (Nat.pow_pos (Nat.mul_pos hb hb)))

/-- A square that overflows while exponent bits remain shows that the power does, unless a factor 0 came before. -/
theorem le_pow_of_square_overflow {r b e : Nat} (hr : r = 0 → b = 0) (he : e / 2 ≠ 0) (h : 2 ^ 64 ≤ b * b) :
    2 ^ 64 ≤ r * b ^ e := by
  have hb : 0 < b := Nat.pos_of_ne_zero (by rintro rfl; simp at h)
  have hr : 0 < r := Nat.pos_of_ne_zero (fun h0 => hb.ne' (hr h0))
  rw [mul_pow_eq_mul_sq_pow_half]
  calc 2 ^ 64 ≤ b * b := h
    _ ≤ (b * b) ^ (e / 2) := Nat.le_self_pow he _
    _ ≤ r * b ^ (e % 2) * (b * b) ^ (e / 2) := Nat.le_mul_of_pos_left _ (Nat.mul_pos hr (Nat.pow_pos hb))

/-- The loop's invariant: result times base to the remaining exponent is the exact power, and a result that is 0 got
there by a base that is 0, which stays 0. -/
theorem powxLoop_eq_checkedWord (fuel : Nat) (result base : Word) (e : Nat) (he : e < 2 ^ fuel)
    (hzero : result.toNat = 0 → base.toNat = 0) :
    powxLoop fuel result base e = checkedWord (result.toNat * base.toNat ^ e) := by
  fun_induction powxLoop with
  | case1 base e result => -- no fuel is left, so the exponent is 0
    obtain rfl : e = 0 := by simpa using he
    rw [pow_zero, mul_one, checkedWord_toNat]
  | case2 => rw [pow_zero, mul_one, checkedWord_toNat] -- the exponent is used up
  | case3 fuel result base e _ product hhigh => -- the product overflows
    have hover := Nat.not_lt.1 (mt (powxProduct_high_eq_zero_iff result base e).2 hhigh)
    exact (checkedWord_of_le (le_pow_of_product_overflow result.isLt hover)).symm
  | case4 fuel result base e _ product hhigh hlast => -- that was the last exponent bit
    have hfits := (powxProduct_high_eq_zero_iff result base e).1 (not_not.1 hhigh)
    rw [mul_pow_eq_mul_sq_pow_half, hlast, pow_zero, mul_one, ← powxProduct_low_toNat hfits, checkedWord_toNat]
  | case5 fuel result base e _ product hhigh hmore square hsquare => -- the square overflows
    have hover := Nat.not_lt.1 (mt (mul128_high_eq_zero_iff base base).2 hsquare)
    exact (checkedWord_of_le (le_pow_of_square_overflow hzero hmore hover)).symm
  | case6 fuel result base e _ product hhigh hmore square hsquare ih => -- the loop goes on
    have hproduct : product.2.toNat = _ :=
      powxProduct_low_toNat ((powxProduct_high_eq_zero_iff result base e).1 (not_not.1 hhigh))
    have hsquare : square.2.toNat = _ :=
      mul128_low_toNat ((mul128_high_eq_zero_iff base base).1 (not_not.1 hsquare))
    have hzero' : product.2.toNat = 0 → square.2.toNat = 0 := fun h0 => by
      rw [hproduct] at h0
      rw [hsquare, (Nat.mul_eq_zero.1 h0).elim hzero eq_zero_of_pow_eq_zero]
    rw [ih (by omega) hzero', hproduct, hsquare, ← mul_pow_eq_mul_sq_pow_half]

/-- 64 iterations are enough for an exponent of 64 bits (R126). -/
theorem powxDatapath_eq_checkedWord (a b : Word) : powxDatapath a b = checkedWord (a.toNat ^ b.toNat) := by
  simpa [powxDatapath] using powxLoop_eq_checkedWord 64 1 a b.toNat b.isLt (by simp)

/-- What powx.u64 leaves: the contract's value and flag, the rest as it was (R125). -/
theorem exec_powx (s : State) :
    exec .powx s = .next (doneWith s (checkedWord (s.unit.curA.toNat ^ s.unit.curB.toNat)).1
      (checkedWord (s.unit.curA.toNat ^ s.unit.curB.toNat)).2 false) := by
  rw [← powxDatapath_eq_checkedWord]
  rfl

/-- Settles O12: the checked loop computes the contract of R125. -/
theorem powxMeetsContract : Obligations.PowxMeetsContract := by
  refine ⟨by decide, fun s => ?_⟩
  rw [exec_powx, checkedWord]
  split <;> rfl

end Sys2Proof.Machine

/-! ## Proofs of the statements about BINOM (42_binomial.md) -/

namespace Sys2Proof.Machine

open Sys2Proof.Spec

/-! ### The double-width division and the addition with carry (R12) -/

theorem mul128_toNat (a b : Word) : (mul128 a b).1.toNat * 2 ^ 64 + (mul128 a b).2.toNat = a.toNat * b.toNat := by
  have hlt : a.toNat * b.toNat < 2 ^ 64 * 2 ^ 64 := Nat.mul_lt_mul'' a.isLt b.isLt
  rw [mul128, BitVec.toNat_ofNat, BitVec.toNat_ofNat, Nat.mod_eq_of_lt (Nat.div_lt_of_lt_mul hlt), Nat.div_add_mod']

/-- A quotient whose dividend is less than 2^64 times its divisor fits 64 bits. -/
theorem div128_quot_toNat {hi lo d : Word} (h : hi.toNat * 2 ^ 64 + lo.toNat < d.toNat * 2 ^ 64) :
    (div128 hi lo d).1.toNat = (hi.toNat * 2 ^ 64 + lo.toNat) / d.toNat := by
  rw [div128, BitVec.toNat_ofNat, Nat.mod_eq_of_lt (Nat.div_lt_of_lt_mul h)]

/-- A remainder fits 64 bits, as its divisor does. -/
theorem div128_rem_toNat (hi lo : Word) {d : Word} (h : 0 < d.toNat) :
    (div128 hi lo d).2.toNat = (hi.toNat * 2 ^ 64 + lo.toNat) % d.toNat := by
  rw [div128, BitVec.toNat_ofNat, Nat.mod_eq_of_lt ((Nat.mod_lt _ h).trans d.isLt)]

theorem add64c_carry_iff (a b : Word) : (add64c a b).2 = true ↔ 2 ^ 64 ≤ a.toNat + b.toNat := decide_eq_true_iff

theorem add64c_sum_toNat {a b : Word} (h : a.toNat + b.toNat < 2 ^ 64) : (add64c a b).1.toNat = a.toNat + b.toNat :=
  BitVec.toNat_add_of_lt h

/-! ### One step of the loop: c * n' / i in two pieces (R143, R144) -/

/-- The two pieces that a step adds: q * n' and r * n' / i, where c = q * i + r. -/
theorem mul_div_eq_quot_add_rem (c n : Nat) {i : Nat} (h : 0 < i) : c * n / i = c / i * n + c % i * n / i := by
  conv_lhs => rw [← Nat.div_add_mod c i, Nat.add_mul, Nat.mul_assoc, Nat.mul_add_div h]

/-- The first division of a step gives the quotient of the coefficient. -/
theorem binomQuotient_toNat (c : Word) {i : Word} (h : 0 < i.toNat) :
    (div128 0 c i).1.toNat = c.toNat / i.toNat := by
  have hlt : (0 : Word).toNat * 2 ^ 64 + c.toNat < i.toNat * 2 ^ 64 := by
    rw [BitVec.ofNat_eq_ofNat, BitVec.toNat_zero, Nat.zero_mul, Nat.zero_add]
    exact c.isLt.trans_le (Nat.le_mul_of_pos_left _ h)
  simpa using div128_quot_toNat hlt

/-- The second piece of a step of R143: r * n' / i, where r is the coefficient's remainder by i. -/
def binomRest (c i n' : Word) : Word :=
  (div128 (mul128 (div128 0 c i).2 n').1 (mul128 (div128 0 c i).2 n').2 i).1

/-- The precondition of the second division holds, since r < i. -/
theorem binomRest_toNat (c n' : Word) {i : Word} (h : 0 < i.toNat) :
    (binomRest c i n').toNat = c.toNat % i.toNat * n'.toNat / i.toNat := by
  have hrem : (div128 0 c i).2.toNat = c.toNat % i.toNat := by simpa using div128_rem_toNat 0 c h
  have hproduct := mul128_toNat (div128 0 c i).2 n'
  rw [hrem] at hproduct
  rw [binomRest, div128_quot_toNat (hproduct ▸ Nat.mul_lt_mul'' (Nat.mod_lt _ h) n'.isLt), hproduct]

/-! ### The coefficients (R144, R145) -/

/-- What a step makes of the coefficient before it: the next one in the row. -/
theorem choose_mul_sub_div (n j : Nat) : n.choose j * (n - j) / (j + 1) = n.choose (j + 1) :=
  Nat.div_eq_of_eq_mul_left j.succ_pos (Nat.choose_succ_right_eq n j).symm

/-- A row of Pascal's triangle grows up to its middle. -/
theorem choose_le_choose_of_le_half {n a b : Nat} (hab : a ≤ b) (hb : b ≤ n / 2) : n.choose a ≤ n.choose b := by
  induction b, hab using Nat.le_induction with
  | base => exact le_rfl
  | succ b _ ih => exact (ih (by omega)).trans (Nat.choose_le_succ_of_lt_half_left hb)

theorem choose_min_sub {n k : Nat} (h : k ≤ n) : n.choose (min k (n - k)) = n.choose k := by
  rcases Nat.le_total k (n - k) with hk | hk
  · rw [Nat.min_eq_left hk]
  · rw [Nat.min_eq_right hk, Nat.choose_symm h]

/-! ### BINOM: the datapath meets the contract (R141 to R145) -/

/-- The two pieces of step j + 1 add up to the next coefficient. -/
theorem binomStep_pieces_add {n j : Nat} {i c n' : Word} (hi : i.toNat = j + 1) (hc : c.toNat = n.choose j)
    (hn : n'.toNat = n - j) :
    (div128 0 c i).1.toNat * n'.toNat + (binomRest c i n').toNat = n.choose (j + 1) := by
  have hpos : 0 < i.toNat := by omega
  rw [binomQuotient_toNat c hpos, binomRest_toNat c n' hpos, ← mul_div_eq_quot_add_rem _ _ hpos, hc, hn, hi,
    choose_mul_sub_div]

/-- The same of the words that step j + 1 adds, where the first piece fits 64 bits. -/
theorem binomStep_words_add {n j : Nat} {i c n' : Word} (hi : i.toNat = j + 1) (hc : c.toNat = n.choose j)
    (hn : n'.toNat = n - j) (hfits : (mul128 (div128 0 c i).1 n').1 = 0) :
    (mul128 (div128 0 c i).1 n').2.toNat + (binomRest c i n').toNat = n.choose (j + 1) := by
  rw [mul128_low_toNat ((mul128_high_eq_zero_iff _ _).1 hfits), binomStep_pieces_add hi hc hn]

/-- Up to the middle of the row no coefficient exceeds the last one, so one that overflows shows that the contract's
value does. -/
theorem checkedWord_of_le_choose {n j m : Nat} (hj : j ≤ m) (hm : m ≤ n / 2) (h : 2 ^ 64 ≤ n.choose j) :
    checkedWord (n.choose m) = (0, true) :=
  checkedWord_of_le (h.trans (choose_le_choose_of_le_half hj hm))

/-- The loop's invariant: before step j + 1 the coefficient is C(n, j) and the factor n - j. -/
theorem binomLoop_eq_checkedWord {n : Nat} (j remaining : Nat) (i c n' : Word) (hi : i.toNat = j + 1)
    (hc : c.toNat = n.choose j) (hn : n'.toNat = n - j) (hhalf : j + remaining ≤ n / 2) :
    binomLoop remaining i c n' = checkedWord (n.choose (j + remaining)) := by
  fun_induction binomLoop generalizing j with
  | case1 i c n' => rw [Nat.add_zero, ← hc, checkedWord_toNat] -- the last step is done
  | case2 remaining i c n' qr hp hhigh => -- the first piece overflows
    have hover : 2 ^ 64 ≤ qr.1.toNat * n'.toNat := Nat.not_lt.1 (mt (mul128_high_eq_zero_iff _ _).2 hhigh)
    have hnext : qr.1.toNat * n'.toNat + _ = n.choose (j + 1) := binomStep_pieces_add hi hc hn
    exact (checkedWord_of_le_choose (by omega) hhalf (hnext ▸ Nat.le_add_right_of_le hover)).symm
  | case3 remaining i c n' qr hp hhigh hl p2 sum hcarry => -- the sum of the pieces overflows
    have hover : 2 ^ 64 ≤ hp.2.toNat + p2.toNat := (add64c_carry_iff _ _).1 hcarry
    have hnext : hp.2.toNat + p2.toNat = n.choose (j + 1) := binomStep_words_add hi hc hn (not_not.1 hhigh)
    exact (checkedWord_of_le_choose (by omega) hhalf (hnext ▸ hover)).symm
  | case4 remaining i c n' qr hp hhigh hl p2 sum hcarry ih => -- the loop goes on
    have hfits : hp.2.toNat + p2.toNat < 2 ^ 64 := Nat.not_le.1 (mt (add64c_carry_iff _ _).2 hcarry)
    have hnext : hp.2.toNat + p2.toNat = n.choose (j + 1) := binomStep_words_add hi hc hn (not_not.1 hhigh)
    have hi' : (i + 1).toNat = j + 1 + 1 := by bv_omega
    have hn' : (n' - 1).toNat = n - (j + 1) := by bv_omega
    rw [ih (j + 1) hi' ((add64c_sum_toNat hfits).trans hnext) hn' (by omega), Nat.add_right_comm, Nat.add_assoc]

/-- The edge cases of R142 are coefficients too: 0 beyond the row and 1 at its ends. -/
theorem binomDatapath_eq_checkedWord (n k : Word) : binomDatapath n k = checkedWord (n.toNat.choose k.toNat) := by
  rw [binomDatapath]
  split_ifs with hlt hends
  · rw [Nat.choose_eq_zero_of_lt (BitVec.lt_def.1 hlt)]
    rfl
  · rcases hends with rfl | rfl <;> simp [checkedWord]
  · have hle : k.toNat ≤ n.toNat := Nat.not_lt.1 hlt
    rw [binomLoop_eq_checkedWord (n := n.toNat) 0 _ 1 1 n rfl (by simp) rfl (by omega), Nat.zero_add,
      choose_min_sub hle]

/-- What binom.u64 leaves: the contract's value and flag, the rest as it was (R141). -/
theorem exec_binom (s : State) :
    exec .binom s = .next (doneWith s (checkedWord (s.unit.curA.toNat.choose s.unit.curB.toNat)).1
      (checkedWord (s.unit.curA.toNat.choose s.unit.curB.toNat)).2 false) := by
  rw [← binomDatapath_eq_checkedWord]
  rfl

theorem exec_binom_of_fits {s : State} (h : s.unit.curA.toNat.choose s.unit.curB.toNat < 2 ^ 64) :
    exec .binom s =
      .next (doneWith s (BitVec.ofNat 64 (s.unit.curA.toNat.choose s.unit.curB.toNat)) false false) := by
  rw [exec_binom, checkedWord, if_neg (by omega)]

theorem exec_binom_of_overflow {s : State} (h : 2 ^ 64 ≤ s.unit.curA.toNat.choose s.unit.curB.toNat) :
    exec .binom s = .next (doneWith s 0 true false) := by
  rw [exec_binom, checkedWord_of_le h]

/-- Settles O13: the datapath computes the contract of R141, whose C(n, k) is 0 for k > n. -/
theorem binomMeetsContract : Obligations.BinomMeetsContract := by
  refine ⟨by decide, fun s => ?_⟩
  split_ifs with hbeyond hover
  · have hzero := Nat.choose_eq_zero_of_lt hbeyond
    rw [exec_binom_of_fits (by omega), hzero]
    rfl
  · exact exec_binom_of_overflow (by omega)
  · exact exec_binom_of_fits (by omega)

/-! ### Row 67, the last that fits 64 bits (R147) -/

theorem choose_67_33 : Nat.choose 67 33 = 0xC56EC13C4B95E372 := by
  norm_num [Nat.choose_eq_descFactorial_div_factorial]

theorem choose_68_34 : Nat.choose 68 34 = 28453041475240576740 := by
  norm_num [Nat.choose_eq_descFactorial_div_factorial]

/-- No coefficient up to row 67 exceeds the middle one of that row. -/
theorem choose_lt_of_row_le {n : Nat} (k : Nat) (h : n ≤ 67) : n.choose k < 2 ^ 64 :=
  calc n.choose k ≤ Nat.choose 67 k := Nat.choose_le_choose k h
    _ ≤ Nat.choose 67 33 := Nat.choose_le_middle k 67
    _ < 2 ^ 64 := by rw [choose_67_33]; decide

/-- Settles O14: the middle coefficient of row 67 fits 64 bits, and with it every coefficient up to that row; that of
row 68 does not. -/
theorem binomRowSixtySeven : Obligations.BinomRowSixtySeven := by
  refine fun s => ⟨fun hn _ => ?_, fun hn hk => ?_, fun hn hk => ?_⟩
  · have hfits := choose_lt_of_row_le s.unit.curB.toNat hn
    exact ⟨_, exec_binom_of_fits hfits, by rw [BitVec.toNat_ofNat, Nat.mod_eq_of_lt hfits]⟩
  · have hvalue : s.unit.curA.toNat.choose s.unit.curB.toNat = 0xC56EC13C4B95E372 := by
      rw [hn, hk]
      exact choose_67_33
    rw [exec_binom_of_fits (by omega), hvalue]
    rfl
  · have hvalue : s.unit.curA.toNat.choose s.unit.curB.toNat = 28453041475240576740 := by
      rw [hn, hk]
      exact choose_68_34
    exact exec_binom_of_overflow (by omega)

end Sys2Proof.Machine

/-! ## Proofs of the statements about logarithms and lengths (43_log.md) -/

namespace Sys2Proof.Machine

open Sys2Proof.Spec

/-! ### Operands and results (R86, R87, R171)

The results below are stated with the library's `Nat.log`, `Nat.clog` and the `decimalDigits` of the statements, as
functions of the operand's number alone. -/

theorem bits_le (w : Width) : w.bits ≤ 64 := by cases w <;> decide

theorem low_lt (w : Width) (x : Word) : low w x < 2 ^ w.bits := Nat.mod_lt _ (Nat.two_pow_pos _)

theorem low_lt_two_pow_64 (w : Width) (x : Word) : low w x < 2 ^ 64 :=
  (low_lt w x).trans_le (Nat.pow_le_pow_right (by decide) (bits_le w))

theorem operandA_eq_zero_iff (w : Width) (s : State) : operandA w s = 0 ↔ low w s.unit.curA = 0 := by
  rw [← BitVec.toNat_inj, operandA, toNat_lowBits]
  rfl

/-- The zero-extended operand is the operand's number as a 64-bit word (R171). -/
theorem toNat_place_operandA (w : Width) (s : State) : (place (operandA w s)).toNat = low w s.unit.curA := by
  rw [place, BitVec.toNat_setWidth_of_le (bits_le w), operandA, toNat_lowBits]

/-- A result that fits W bits is not cut off (R171). -/
theorem finish_of_fits {n r : Nat} (s : State) (hr : r < 2 ^ n) :
    s.finish (BitVec.ofNat n r) false = .next (doneWith s (BitVec.ofNat 64 r) false false) := by
  rw [State.finish, place_ofNat, Nat.mod_eq_of_lt hr, complete_eq_doneWith]

section LogarithmGuard
/-! The four logarithm commands complete with LOGZERO for operand 0 and with their own result otherwise. -/

variable {w : Width} {s : State}

theorem finish_logarithm_of_zero (h : low w s.unit.curA = 0) (z v : BitVec w.bits) :
    s.finish (if operandA w s = 0 then z else v) false = .next (doneWith s (z.setWidth 64) false false) := by
  rw [if_pos ((operandA_eq_zero_iff w s).2 h)]
  rfl

theorem finish_logarithm_of_pos (h : low w s.unit.curA ≠ 0) (z : BitVec w.bits) {v : BitVec w.bits} {r : Nat}
    (hv : v = BitVec.ofNat w.bits r) (hr : r ≤ low w s.unit.curA) :
    s.finish (if operandA w s = 0 then z else v) false = .next (doneWith s (BitVec.ofNat 64 r) false false) := by
  rw [if_neg (mt (operandA_eq_zero_iff w s).1 h), hv, finish_of_fits s (hr.trans_lt (low_lt w _))]

end LogarithmGuard

/-- Settles O20: the operand 0 takes the guard of each of the four commands. -/
theorem logOfZeroIsFree : Obligations.LogOfZeroIsFree := fun _ _ h =>
  ⟨finish_logarithm_of_zero h _ _, finish_logarithm_of_zero h _ _, finish_logarithm_of_zero h _ _,
    finish_logarithm_of_zero h _ _⟩

/-! ### The de Bruijn datapath (R162) -/

/-- Each set bit of `x` is spread over itself and the `n - 1` places below it, and nothing else is set in `v`. -/
def SpreadsDown (x v : Word) (n : Nat) : Prop :=
  ∀ i, v.getLsbD i = true ↔ ∃ j, i ≤ j ∧ j < i + n ∧ x.getLsbD j = true

theorem spreadsDown_self (x : Word) : SpreadsDown x x 1 := fun i =>
  ⟨fun h => ⟨i, le_rfl, by omega, h⟩, fun ⟨j, hij, hji, h⟩ => by rwa [show i = j by omega]⟩

/-- An OR with the value shifted by as far as it is spread doubles the spread. -/
theorem SpreadsDown.or_shift {x v : Word} {n : Nat} (h : SpreadsDown x v n) :
    SpreadsDown x (v ||| v >>> n) (n + n) := fun i => by
  rw [BitVec.getLsbD_or, BitVec.getLsbD_ushiftRight, Bool.or_eq_true, h, h]
  constructor
  · rintro (⟨j, hlo, hhi, hj⟩ | ⟨j, hlo, hhi, hj⟩)
    · exact ⟨j, hlo, by omega, hj⟩
    · exact ⟨j, by omega, by omega, hj⟩
  · rintro ⟨j, hlo, hhi, hj⟩
    by_cases hnear : j < i + n
    · exact .inl ⟨j, hlo, hnear, hj⟩
    · exact .inr ⟨j, by omega, by omega, hj⟩

/-- The six shifts spread every set bit over all the places below it. -/
theorem spreadsDown_smear (x : Word) : SpreadsDown x (smear x) 64 :=
  (spreadsDown_self x).or_shift.or_shift.or_shift.or_shift.or_shift.or_shift

theorem exists_testBit_ge_iff (n i : Nat) : (∃ j, i ≤ j ∧ n.testBit j = true) ↔ 2 ^ i ≤ n :=
  ⟨fun ⟨_, hij, h⟩ => (Nat.pow_le_pow_right (by decide) hij).trans (Nat.ge_two_pow_of_testBit h),
    Nat.exists_ge_and_testBit_of_ge_two_pow⟩

/-- The smeared word is all ones up to the highest set bit (R162). -/
theorem smear_toNat {x : Word} (hx : x.toNat ≠ 0) : (smear x).toNat = 2 ^ (Nat.log 2 x.toNat + 1) - 1 := by
  refine Nat.eq_of_testBit_eq fun i => Bool.eq_iff_iff.2 ?_
  have hbits : (∃ j, i ≤ j ∧ j < i + 64 ∧ x.getLsbD j = true) ↔ ∃ j, i ≤ j ∧ x.toNat.testBit j = true :=
    exists_congr fun j => ⟨fun ⟨hij, _, hj⟩ => ⟨hij, hj⟩, fun ⟨hij, hj⟩ =>
      ⟨hij, (BitVec.lt_of_getLsbD hj).trans_le (by omega), hj⟩⟩
  rw [BitVec.testBit_toNat, spreadsDown_smear x i, hbits, exists_testBit_ge_iff, Nat.testBit_two_pow_sub_one,
    decide_eq_true_iff, Nat.lt_succ_iff, Nat.le_log_iff_pow_le (by decide) hx]

/-- Taking the smeared word's shift off it leaves the highest set bit alone (R162). -/
theorem smear_sub_shift_toNat {x : Word} (hx : x.toNat ≠ 0) :
    (smear x - smear x >>> 1).toNat = 2 ^ Nat.log 2 x.toNat := by
  have hhalf : (smear x >>> 1).toNat = 2 ^ Nat.log 2 x.toNat - 1 := by
    rw [BitVec.toNat_ushiftRight, smear_toNat hx, Nat.shiftRight_one, pow_succ]
    omega
  have hpos := Nat.two_pow_pos (Nat.log 2 x.toNat)
  rw [BitVec.toNat_sub_of_le (by rw [BitVec.le_def, hhalf, smear_toNat hx, pow_succ]; omega), hhalf, smear_toNat hx,
    pow_succ]
  omega

theorem deBruijnIndex_toNat (v : Word) : (deBruijnIndex v).toNat = v.toNat * 0x07EDD5E59A4E28C2 % 2 ^ 64 / 2 ^ 58 := by
  rw [deBruijnIndex, BitVec.extractLsb'_toNat, BitVec.toNat_mul, Nat.shiftRight_eq_div_pow]
  exact Nat.mod_eq_of_lt (Nat.div_lt_of_lt_mul (Nat.mod_lt _ (by decide)))

/-- With the printed table the datapath finds the highest set bit (R35, R162). -/
theorem deBruijnLog2_toNat {x : Word} (hx : x.toNat ≠ 0) :
    (deBruijnLog2 dbtabContents x).toNat = Nat.log 2 x.toNat := by
  have hlt : Nat.log 2 x.toNat < 64 := Nat.log_lt_of_lt_pow hx x.isLt
  have hentry := dbtabHoldsBitPositions ⟨_, hlt⟩
  have hindex : (deBruijnIndex (smear x - smear x >>> 1)).toNat < 64 := BitVec.isLt _
  rw [← smear_sub_shift_toNat hx, ← deBruijnIndex_toNat, Vector.getElem?_eq_getElem hindex, Option.map_some,
    Option.some_inj] at hentry
  exact hentry

/-! ### Bit-lengths and the ceiling of the base-2 logarithm (R163) -/

theorem bitLen_le_iff (n k : Nat) : bitLen n ≤ k ↔ n < 2 ^ k := by
  refine ⟨fun h => (lt_two_pow_bitLen n).trans_le (Nat.pow_le_pow_right (by decide) h), fun h => ?_⟩
  rcases eq_or_ne n 0 with rfl | hn
  · exact Nat.zero_le k
  · have hpow : 2 ^ bitLen n < 2 ^ (k + 1) := (two_pow_bitLen_le hn).trans_lt (by rw [pow_succ]; omega)
    exact Nat.lt_succ_iff.1 ((Nat.pow_lt_pow_iff_right (by decide)).1 hpow)

/-- The bit-length of u - 1 and the ceiling have the same upper bounds. -/
theorem bitLen_pred_eq_clog (u : Nat) : bitLen (u - 1) = Nat.clog 2 u :=
  eq_of_forall_ge_iff fun k => by
    have hpos := Nat.two_pow_pos k
    rw [bitLen_le_iff, Nat.clog_le_iff_le_pow (by decide)]
    omega

/-! ### The digit table (R36, R164, R166) -/

theorem decimalDigits_eq_log_succ (m : Nat) : decimalDigits m = Nat.log 10 m + 1 := by
  rcases eq_or_ne m 0 with rfl | hm
  · rfl
  · rw [decimalDigits, if_neg hm, Nat.length_digits 10 m (by decide) hm]

/-- The row of an operand above 0 holds `L + 1` digits and the threshold 10^L, where the operand lies between half the
threshold and 10^(L + 1): it has `L` digits below the threshold and `L + 1` from there on (R166). -/
theorem digitRow_bounds {u : Word} (hu : u.toNat ≠ 0) :
    ∃ L, (digitRow d10tabContents u).digits.toNat = L + 1 ∧ (digitRow d10tabContents u).threshold.toNat = 10 ^ L ∧
      10 ^ L < 2 * u.toNat ∧ u.toNat < 10 ^ (L + 1) := by
  have hpos : 1 ≤ bitLen u.toNat := by simp [bitLen, hu]
  obtain ⟨-, hrows⟩ := digitTableHoldsDigitCounts
  have hrow := hrows _ hpos (bitLen_le u)
  have hindex : bitLen u.toNat < 65 := Nat.lt_succ_of_le (bitLen_le u)
  rw [Vector.getElem?_eq_getElem hindex, Option.map_some, Option.some_inj, Prod.mk.injEq,
    decimalDigits_eq_log_succ, Nat.add_sub_cancel] at hrow
  obtain ⟨hdigits, hthreshold⟩ := hrow
  have hlt := lt_two_pow_bitLen u.toNat
  have hle := two_pow_bitLen_le hu
  have hlow := Nat.pow_log_le_self 10 (x := 2 ^ bitLen u.toNat - 1) (by omega)
  have hhigh := Nat.lt_pow_succ_log_self (b := 10) (by decide) (2 ^ bitLen u.toNat - 1)
  exact ⟨_, hdigits, hthreshold, by omega, by omega⟩

/-- FLP1 is the decimal digit count, that of 0 included (R164, R166). -/
theorem flp1_eq_decimalDigits (u : Word) : flp1 d10tabContents u = decimalDigits u.toNat := by
  rcases eq_or_ne u.toNat 0 with hu | hu
  · rw [show u = 0 from BitVec.eq_of_toNat_eq hu]
    decide
  · obtain ⟨L, hdigits, hthreshold, hlow, hhigh⟩ := digitRow_bounds hu
    simp only [flp1, hdigits, BitVec.lt_def, hthreshold, decimalDigits_eq_log_succ]
    split
    case isFalse h => rw [Nat.log_eq_of_pow_le_of_lt_pow (by omega) hhigh, Int.sub_zero]
    case isTrue h =>
      obtain ⟨k, rfl⟩ := Nat.exists_eq_succ_of_ne_zero (show L ≠ 0 by rintro rfl; omega)
      rw [Nat.log_eq_of_pow_le_of_lt_pow (m := k) (by rw [Nat.succ_eq_add_one, pow_succ] at hlow; omega) h]
      omega

/-- With the comparison that is not strict the row gives the ceiling of the base-10 logarithm (R169, R170). -/
theorem clog10Digits_eq_clog {u : Word} (hu : u.toNat ≠ 0) :
    clog10Digits d10tabContents u = Nat.clog 10 u.toNat := by
  obtain ⟨L, hdigits, hthreshold, hlow, hhigh⟩ := digitRow_bounds hu
  simp only [clog10Digits, hdigits, BitVec.le_def, hthreshold]
  split
  case isFalse h =>
    have : Nat.clog 10 u.toNat ≤ L + 1 := Nat.clog_le_of_le_pow hhigh.le
    have : L < Nat.clog 10 u.toNat := (Nat.lt_clog_iff_pow_lt (by decide)).2 (by omega)
    omega
  case isTrue h =>
    have : Nat.clog 10 u.toNat ≤ L := Nat.clog_le_of_le_pow h
    have : L ≤ Nat.clog 10 u.toNat := by
      cases L with
      | zero => exact Nat.zero_le _
      | succ k => exact (Nat.lt_clog_iff_pow_lt (by decide)).2 (by rw [pow_succ] at hlow; omega)
    omega

/-! ### What the four logarithm commands leave for an operand above 0 -/

section Logarithms

variable {w : Width} {s : State}

theorem exec_flog2 (hdb : s.unit.dbtab = dbtabContents) (h : low w s.unit.curA ≠ 0) :
    exec (.flog2 w) s = .next (doneWith s (BitVec.ofNat 64 (Nat.log 2 (low w s.unit.curA))) false false) := by
  refine finish_logarithm_of_pos h _ ?_ (Nat.log_le_self 2 _)
  rw [← toNat_place_operandA] at h ⊢
  rw [hdb, ← deBruijnLog2_toNat h, BitVec.ofNat_toNat]

theorem exec_clog2 (h : low w s.unit.curA ≠ 0) :
    exec (.clog2 w) s = .next (doneWith s (BitVec.ofNat 64 (Nat.clog 2 (low w s.unit.curA))) false false) := by
  refine finish_logarithm_of_pos h _ ?_ (Nat.clog_le_of_le_pow (Nat.lt_pow_self (by decide)).le)
  rw [operandA, toNat_lowBits, bitLen_pred_eq_clog]

theorem exec_flog10 (hd : s.unit.d10tab = d10tabContents) (h : low w s.unit.curA ≠ 0) :
    exec (.flog10 w) s = .next (doneWith s (BitVec.ofNat 64 (Nat.log 10 (low w s.unit.curA))) false false) := by
  refine finish_logarithm_of_pos h _ ?_ (Nat.log_le_self 10 _)
  rw [hd, flp1_eq_decimalDigits, toNat_place_operandA, decimalDigits_eq_log_succ, Nat.cast_succ, add_sub_cancel_right,
    BitVec.ofInt_natCast]

theorem exec_clog10 (hd : s.unit.d10tab = d10tabContents) (h : low w s.unit.curA ≠ 0) :
    exec (.clog10 w) s = .next (doneWith s (BitVec.ofNat 64 (Nat.clog 10 (low w s.unit.curA))) false false) := by
  refine finish_logarithm_of_pos h _ ?_ (Nat.clog_le_of_le_pow (Nat.lt_pow_self (by decide)).le)
  rw [← toNat_place_operandA] at h ⊢
  rw [hd, clog10Digits_eq_clog h, BitVec.ofInt_natCast]

end Logarithms

/-- Settles O15: the datapath finds the highest set bit, which is the floor of the logarithm. -/
theorem flogTwoIsFloor : Obligations.FlogTwoIsFloor :=
  ⟨fun w => by cases w <;> decide, fun _ _ hdb =>
    ⟨fun h => ⟨_, Nat.pow_log_le_self 2 h, Nat.lt_pow_succ_log_self (by decide) _, exec_flog2 hdb h⟩,
      fun h => finish_logarithm_of_zero h _ _⟩⟩

/-- Settles O16: the bit-length of u - 1 is the ceiling of the logarithm. -/
theorem clogTwoIsCeiling : Obligations.ClogTwoIsCeiling :=
  ⟨fun w => by cases w <;> decide, fun _ _ =>
    ⟨fun h => ⟨_, Nat.le_pow_clog (by decide) _, fun _ => Nat.clog_le_of_le_pow, exec_clog2 h⟩,
      fun h => finish_logarithm_of_zero h _ _⟩⟩

/-- Settles O17: one below the digit count is the floor of the logarithm. -/
theorem flogTenIsFloor : Obligations.FlogTenIsFloor :=
  ⟨fun w => by cases w <;> decide, fun _ _ hd =>
    ⟨fun h => ⟨_, Nat.pow_log_le_self 10 h, Nat.lt_pow_succ_log_self (by decide) _, exec_flog10 hd h⟩,
      fun h => finish_logarithm_of_zero h _ _⟩⟩

/-- Settles O18: the row with the comparison that is not strict gives the ceiling of the logarithm. -/
theorem clogTenIsCeiling : Obligations.ClogTenIsCeiling :=
  ⟨fun w => by cases w <;> decide, fun _ _ hd =>
    ⟨fun h => ⟨_, Nat.le_pow_clog (by decide) _, fun _ => Nat.clog_le_of_le_pow, exec_clog10 hd h⟩,
      fun h => finish_logarithm_of_zero h _ _⟩⟩

/-! ### Floor and ceiling side by side (R173) -/

theorem clog_le_log_succ {b : Nat} (hb : 1 < b) (n : Nat) : Nat.clog b n ≤ Nat.log b n + 1 :=
  Nat.clog_le_of_le_pow (Nat.lt_pow_succ_log_self hb n).le

/-- Floor and ceiling agree exactly at the powers of the base. -/
theorem clog_eq_log_iff {b n : Nat} (hb : 1 < b) (hn : n ≠ 0) : Nat.clog b n = Nat.log b n ↔ ∃ j, n = b ^ j := by
  constructor
  · intro h
    exact ⟨_, ((Nat.le_pow_clog hb n).trans_eq (congrArg _ h)).antisymm (Nat.pow_log_le_self b hn)⟩
  · rintro ⟨j, rfl⟩
    rw [Nat.clog_pow b j hb, Nat.log_pow hb]

/-- Settles O21: the two commands give the library's floor and ceiling. -/
theorem logTwoSandwich : Obligations.LogTwoSandwich := fun _ _ hdb h =>
  ⟨_, _, exec_flog2 hdb h, exec_clog2 h, Nat.log_le_clog 2 _, clog_le_log_succ (by decide) _,
    Nat.pow_log_le_self 2 h, Nat.lt_pow_succ_log_self (by decide) _, clog_eq_log_iff (by decide) h⟩

/-! ### Lengths (R165) -/

/-- The characters of a number in base 10, the minus sign counted (R165). -/
def characters (n : Int) : Nat := decimalDigits n.natAbs + if n < 0 then 1 else 0

/-- A number has at most as many digits as its value, and 0 has one. -/
theorem decimalDigits_le (m : Nat) : decimalDigits m ≤ max m 1 := by
  rcases eq_or_ne m 0 with rfl | hm
  · decide
  · rw [decimalDigits_eq_log_succ]
    exact le_max_of_le_left (Nat.log_lt_self 10 hm)

theorem slow_bounds (w : Width) (x : Word) : -2 ^ (w.bits - 1) ≤ slow w x ∧ slow w x < 2 ^ (w.bits - 1) := by
  rw [slow_eq_toInt]
  exact ⟨BitVec.le_toInt _, BitVec.toInt_lt⟩

theorem natAbs_slow_le (w : Width) (x : Word) : (slow w x).natAbs ≤ 2 ^ (w.bits - 1) := by
  obtain ⟨hlow, hhigh⟩ := slow_bounds w x
  zify
  exact abs_le.2 ⟨hlow, hhigh.le⟩

/-- The length of a signed operand fits its width: a half of the range leaves room for the minus sign. -/
theorem characters_slow_lt (w : Width) (x : Word) : characters (slow w x) < 2 ^ w.bits := by
  have habs := natAbs_slow_le w x
  have hdigits := decimalDigits_le (slow w x).natAbs
  have hhalf : 2 < 2 ^ (w.bits - 1) := by cases w <;> decide
  rw [← Nat.two_pow_pred_add_two_pow_pred (bits_pos w), characters]
  split <;> omega

/-- The hard-coded length of the 64-bit minimum is its character count, and every other magnitude fits 64 bits
unsigned (R165). -/
theorem signedLen_eq_characters (w : Width) {n : Int} (hn : n.natAbs < 2 ^ 64) :
    signedLen d10tabContents w n = characters n := by
  rw [signedLen]
  split
  case isTrue h =>
    obtain ⟨-, rfl⟩ := h
    simp [characters, decimalDigits]
  case isFalse h =>
    rw [flp1_eq_decimalDigits, BitVec.toNat_ofNat, Nat.mod_eq_of_lt hn, characters]
    split <;> rfl

section Lengths

variable {w : Width} {s : State}

theorem exec_lenU (hd : s.unit.d10tab = d10tabContents) :
    exec (.lenU w) s = .next (doneWith s (BitVec.ofNat 64 (decimalDigits (low w s.unit.curA))) false false) := by
  have hfits : decimalDigits (low w s.unit.curA) < 2 ^ w.bits :=
    (decimalDigits_le _).trans_lt (max_lt (low_lt w _) (Nat.one_lt_two_pow (bits_pos w).ne'))
  rw [← finish_of_fits s hfits, ← BitVec.ofInt_natCast, ← toNat_place_operandA, ← flp1_eq_decimalDigits, ← hd]
  rfl

theorem exec_lenS (hd : s.unit.d10tab = d10tabContents) :
    exec (.lenS w) s = .next (doneWith s (BitVec.ofNat 64 (characters (slow w s.unit.curA))) false false) := by
  have habs : (slow w s.unit.curA).natAbs < 2 ^ 64 :=
    (natAbs_slow_le w _).trans_lt (Nat.pow_lt_pow_right (by decide) (by have := bits_pos w; have := bits_le w; omega))
  rw [← finish_of_fits s (characters_slow_lt w _), ← BitVec.ofInt_natCast, ← signedLen_eq_characters w habs, ← hd,
    slow_eq_toInt]
  rfl

end Lengths

/-- Settles O19: FLP1 counts the digits of the magnitude. -/
theorem lenCountsCharacters : Obligations.LenCountsCharacters :=
  ⟨fun w => by cases w <;> decide, fun _ _ hd => ⟨exec_lenU hd, exec_lenS hd⟩⟩

/-! ### Narrow commands and width 64 (R171) -/

/-- A zero-extended operand is the same number at width 64. -/
theorem low_w64_ofNat_low (w : Width) (x : Word) : low .w64 (BitVec.ofNat 64 (low w x)) = low w x := by
  rw [low, Width.bits, BitVec.toNat_ofNat, Nat.mod_mod, Nat.mod_eq_of_lt (low_lt_two_pow_64 w x)]

/-- A sign-extended operand is the same number at width 64. -/
theorem slow_w64_ofInt_slow (w : Width) (x : Word) : slow .w64 (BitVec.ofInt 64 (slow w x)) = slow w x := by
  obtain ⟨hlow, hhigh⟩ := slow_bounds w x
  have hhalf : (2 : Int) ^ (w.bits - 1) ≤ 2 ^ (Width.w64.bits - 1) := by cases w <;> decide
  rw [slow_eq_toInt, show lowBits .w64 (BitVec.ofInt 64 (slow w x)) = BitVec.ofInt 64 (slow w x) from
    BitVec.setWidth_eq _]
  exact BitVec.toInt_ofInt_eq_self (by decide) (by omega) (by omega)

/-- Settles O22: every result is a function of the operand's number alone. -/
theorem narrowLogAgreesWithWide : Obligations.NarrowLogAgreesWithWide := by
  intro w s hdb hd wide swide
  have hwide : low .w64 wide.unit.curA = low w s.unit.curA := low_w64_ofNat_low w _
  have hswide : slow .w64 swide.unit.curA = slow w s.unit.curA := slow_w64_ofInt_slow w _
  refine ⟨fun h => ?_, ?_⟩
  · have h' : low .w64 wide.unit.curA ≠ 0 := hwide ▸ h
    exact ⟨_, _, _, _, exec_flog2 hdb h, hwide ▸ exec_flog2 hdb h', exec_clog2 h, hwide ▸ exec_clog2 h',
      exec_flog10 hd h, hwide ▸ exec_flog10 hd h', exec_clog10 hd h, hwide ▸ exec_clog10 hd h'⟩
  · exact ⟨_, _, exec_lenU hd, hwide ▸ exec_lenU hd, exec_lenS hd, hswide ▸ exec_lenS hd⟩

end Sys2Proof.Machine

/-! ## Proofs of the statements about the square root (44_sqrt.md) -/

namespace Sys2Proof.Machine

open Sys2Proof.Spec

/-- The path of `sqrt.uW` on the operand's number, before it is cut to W bits (R201). -/
def floatRoot (n : Nat) : Nat := ftrunc (fsqrt (f64 n))

/-! ### When the path reaches an integer

The root is computed as a number of units of `1 / D`, to the nearest: it reaches `k` as soon as the exact root is at
least half a unit below `k`. In integers, `(k - 1 / (2 * D))^2 < v`, where `v` is the converted operand, is
`k * k * D < v * D + k`. -/

/-- The test above decides which integers the path of `n` reaches, `v` being the converted operand and `1 / D` the unit
of the root. -/
def RootTest (n v D : Nat) : Prop := ∀ k, 0 < k → (k ≤ floatRoot n ↔ k * k * D < v * D + k)

theorem RootTest.floatRoot_lt_iff {n v D k : Nat} (h : RootTest n v D) (hk : 0 < k) :
    floatRoot n < k ↔ v * D + k ≤ k * k * D := by
  rw [← Nat.not_le, h k hk, Nat.not_lt]

/-- The integer part is the library's floor of the value. -/
theorem ftrunc_eq_floor (x : F64) : ftrunc x = ⌊real x⌋₊ := by
  obtain ⟨hle, hlt⟩ := truncationIsIntegerPart x
  exact ((Nat.floor_eq_iff ((Nat.cast_nonneg _).trans hle)).2 ⟨hle, hlt⟩).symm

/-- A root is rounded to `k` or above from `(k - 1/2)^2` on, which is no integer. -/
theorem le_nearestRoot_iff {k : Nat} (hk : 0 < k) (n : Nat) : k ≤ nearestRoot n ↔ k * k < n + k := by
  have hlo := Nat.sqrt_le n
  have hhi := Nat.lt_succ_sqrt n
  rcases nearestRoot_cases n with ⟨habove, hr⟩ | ⟨hbelow, hr⟩
  · rw [hr]
    exact ⟨fun h => by nlinarith, fun h => by by_contra hlt; nlinarith⟩
  · rw [hr]
    exact ⟨fun h => by nlinarith, fun h => by by_contra hlt; nlinarith⟩

/-- The scale of the path: the root of the converted operand has 53 bits in units of `2^-d`. -/
theorem exists_rootTest {n v : Nat} (hn : n ≠ 0) (h64 : n < 2 ^ 64) (hv : real (f64 n) = v) :
    ∃ d, 2 ^ 104 ≤ v * (2 ^ d * 2 ^ d) ∧ v * (2 ^ d * 2 ^ d) < 2 ^ 106 ∧ RootTest n v (2 ^ d) := by
  obtain ⟨N, e, hroot, hlo, hhi, hreal, -, he⟩ := fsqrt_of_fullMant (f64_fullMant hn)
  obtain ⟨-, hexp⟩ := f64_exp_bounds h64
  obtain ⟨d, rfl⟩ : ∃ d : Nat, e = -d := ⟨(-e).toNat, by omega⟩
  have hN : N = v * (2 ^ d * 2 ^ d) := by
    rw [hv, zpow_neg, zpow_natCast] at hreal
    field_simp at hreal
    rw [← pow_two]
    exact_mod_cast hreal.symm
  have hfloor : floatRoot n = nearestRoot N / 2 ^ d := by
    rw [floatRoot, ftrunc_eq_floor, hroot, real_normal, zpow_neg, zpow_natCast, ← div_eq_mul_inv]
    exact_mod_cast Nat.floor_div_eq_div (K := ℝ) _ _
  refine ⟨d, hN ▸ hlo, hN ▸ hhi, fun k hk => ?_⟩
  have hD := Nat.two_pow_pos d
  rw [hfloor, Nat.le_div_iff_mul_le hD, le_nearestRoot_iff (Nat.mul_pos hk hD), hN,
    ← Nat.mul_lt_mul_right hD (b := k * k * 2 ^ d)]
  ring_nf

/-- A bound on the converted operand makes the unit of the root small. -/
theorem two_pow_le_of_scale {v b d j : Nat} (hscale : 2 ^ 104 ≤ v * (2 ^ d * 2 ^ d)) (hv : v ≤ b)
    (hb : b * (2 ^ j * 2 ^ j) < 2 ^ 104) : 2 ^ (j + 1) ≤ 2 ^ d := by
  refine Nat.pow_le_pow_right (by decide) (Nat.not_lt.1 fun hlt => ?_)
  have hunit : 2 ^ d ≤ 2 ^ j := Nat.pow_le_pow_right (by decide) (Nat.le_of_lt_succ hlt)
  exact absurd (hscale.trans (Nat.mul_le_mul hv (Nat.mul_le_mul hunit hunit))) (Nat.not_le.2 hb)

/-! ### The error of the conversion -/

/-- The value of a conversion that rounds. -/
theorem real_f64_of_lt_bitLen {n s : Nat} (hs : 0 < s) (h : bitLen n = s + 53) :
    real (f64 n) = ((roundShift n s * 2 ^ s : Nat) : ℝ) := by
  rw [f64_of_lt_bitLen hs h, real_normal, zpow_natCast]
  push_cast
  rfl

theorem lt_sqrt_of_two_mul_sq_le {b n : Nat} (h : 2 * (b * b) ≤ n) (h9 : 9 ≤ n) : b < Nat.sqrt n := by
  refine Nat.succ_le_of_lt (Nat.le_sqrt.2 ?_)
  rcases Nat.lt_or_ge b 3 with hb | hb <;> nlinarith

/-- In units of the root, half the unit of the conversion is less than the root. -/
theorem half_unit_lt_sqrt {n s d : Nat} (hs : 0 < s) (h : bitLen n = s + 53)
    (hscale : roundShift n s * 2 ^ s * (2 ^ d * 2 ^ d) < 2 ^ 106) : 2 ^ (s - 1) * 2 ^ d < Nat.sqrt n := by
  obtain ⟨hmant, -⟩ := roundShift_bounds h
  have hle := two_pow_bitLen_le (n := n) (by rintro rfl; simp [bitLen] at h)
  have hexp : s + d + d < 54 := by
    refine (Nat.pow_lt_pow_iff_right (a := 2) (by decide)).1 ?_
    rw [pow_add, pow_add]
    nlinarith [Nat.mul_le_mul_right (2 ^ s * (2 ^ d * 2 ^ d)) hmant]
  have hsq : 2 ^ (s - 1) * 2 ^ d * (2 ^ (s - 1) * 2 ^ d) ≤ 2 ^ (s + 51) := by
    rw [← pow_add, ← pow_add]
    exact Nat.pow_le_pow_right (by decide) (by omega)
  have hbig : 2 ^ 51 ≤ 2 ^ (s + 51) := Nat.pow_le_pow_right (by decide) (by omega)
  have hpow : 2 ^ bitLen n = 4 * 2 ^ (s + 51) := by rw [h]; ring
  exact lt_sqrt_of_two_mul_sq_le (by omega) (by omega)

/-- The conversion misses its operand by less than the root, in units of the root. -/
theorem exists_near_rootTest {n : Nat} (hn : n ≠ 0) (h64 : n < 2 ^ 64) :
    ∃ v D, 0 < D ∧ RootTest n v D ∧ n * D < v * D + Nat.sqrt n ∧ v * D < n * D + Nat.sqrt n := by
  rcases le_or_gt (bitLen n) 53 with hlen | hlen
  · obtain ⟨d, -, -, htest⟩ := exists_rootTest hn h64 (real_f64_of_bitLen_le hlen)
    have := Nat.sqrt_pos.2 (Nat.pos_of_ne_zero hn)
    exact ⟨n, _, Nat.two_pow_pos d, htest, by omega, by omega⟩
  · obtain ⟨s, h⟩ := Nat.exists_eq_add_of_le' hlen.le
    have hs : 0 < s := by omega
    obtain ⟨d, -, hscale, htest⟩ := exists_rootTest hn h64 (real_f64_of_lt_bitLen hs h)
    have hhalf := half_unit_lt_sqrt hs h hscale
    obtain ⟨hup, hdown, -⟩ := roundShift_near n s
    have hpow : 2 ^ s = 2 * 2 ^ (s - 1) := by rw [← pow_succ', Nat.sub_add_cancel hs]
    have hup' : n ≤ roundShift n s * 2 ^ s + 2 ^ (s - 1) := by omega
    have hdown' : roundShift n s * 2 ^ s ≤ n + 2 ^ (s - 1) := by omega
    refine ⟨_, _, Nat.two_pow_pos d, htest, ?_, ?_⟩
    · have := Nat.mul_le_mul_right (2 ^ d) hup'
      rw [add_mul] at this
      omega
    · have := Nat.mul_le_mul_right (2 ^ d) hdown'
      rw [add_mul] at this
      omega

/-! ### The path against the exact floor (R202, R204) -/

theorem sqrt_le_floatRoot {n : Nat} (h64 : n < 2 ^ 64) : Nat.sqrt n ≤ floatRoot n := by
  rcases eq_or_ne n 0 with rfl | hn
  · exact Nat.zero_le _
  · obtain ⟨v, D, -, htest, hup, -⟩ := exists_near_rootTest hn h64
    rw [htest _ (Nat.sqrt_pos.2 (Nat.pos_of_ne_zero hn))]
    exact (Nat.mul_le_mul_right D (Nat.sqrt_le n)).trans_lt hup

theorem floatRoot_le_sqrt_succ {n : Nat} (h64 : n < 2 ^ 64) : floatRoot n ≤ Nat.sqrt n + 1 := by
  rcases eq_or_ne n 0 with rfl | hn
  · exact Nat.zero_le _
  · obtain ⟨v, D, hD, htest, -, hdown⟩ := exists_near_rootTest hn h64
    have hroot := Nat.lt_succ_sqrt n
    rw [← Nat.lt_succ_iff, htest.floatRoot_lt_iff (Nat.succ_pos _)]
    nlinarith

/-- At a square the path falls short of the next integer, by the same error bound (R204). -/
theorem floatRoot_mul_self {m : Nat} (h64 : m * m < 2 ^ 64) : floatRoot (m * m) = m := by
  rcases eq_or_ne m 0 with rfl | hm
  · rfl
  · have hlow := sqrt_le_floatRoot h64
    obtain ⟨v, D, hD, htest, -, hdown⟩ := exists_near_rootTest (Nat.mul_ne_zero hm hm) h64
    rw [Nat.sqrt_eq] at hlow hdown
    refine le_antisymm ?_ hlow
    rw [← Nat.lt_succ_iff, htest.floatRoot_lt_iff (Nat.succ_pos _)]
    nlinarith

/-- Below 2^52 + 2^27 the conversion is exact and a unit of the root is at most 2^-26, so no root is rounded up to the
integer above it (R202). -/
theorem floatRoot_eq_sqrt {n : Nat} (h : n < 2 ^ 52 + 2 ^ 27) : floatRoot n = Nat.sqrt n := by
  rcases eq_or_ne n 0 with rfl | hn
  · rfl
  · have h64 : n < 2 ^ 64 := by omega
    have hexact := real_f64_of_bitLen_le ((bitLen_le_iff n 53).2 (by omega))
    obtain ⟨d, hscale, -, htest⟩ := exists_rootTest hn h64 hexact
    have hd : 2 ^ 26 ≤ 2 ^ d := two_pow_le_of_scale hscale h.le (by decide)
    have hroot := Nat.lt_succ_sqrt n
    have hmax : Nat.sqrt n < 2 ^ 26 + 1 := Nat.sqrt_lt.2 (by omega)
    refine le_antisymm ?_ (sqrt_le_floatRoot h64)
    rw [← Nat.lt_succ_iff, htest.floatRoot_lt_iff (Nat.succ_pos _)]
    rcases Nat.lt_succ_iff_lt_or_eq.1 hmax with hlt | heq
    · have hnext : (n + 1) * 2 ^ d ≤ _ := Nat.mul_le_mul_right (2 ^ d) hroot
      rw [add_mul] at hnext
      omega
    · have hbound : n * 2 ^ d ≤ (2 ^ 52 + 2 ^ 27 - 1) * 2 ^ d := Nat.mul_le_mul_right _ (by omega)
      rw [heq]
      omega

/-! ### The top of the 64-bit range (R203) -/

theorem real_f64_of_64_bits {n : Nat} (hlo : 2 ^ 63 ≤ n) (h64 : n < 2 ^ 64) :
    real (f64 n) = ((roundShift n 11 * 2 ^ 11 : Nat) : ℝ) := by
  have hle := (bitLen_le_iff n 64).2 h64
  have hgt := mt (bitLen_le_iff n 63).1 (by omega)
  exact real_f64_of_lt_bitLen (by decide) (by omega)

/-- From the tie on the conversion gives 2^64. -/
theorem floatRoot_of_ge_tie {n : Nat} (hlo : 2 ^ 64 - 1024 ≤ n) (h64 : n < 2 ^ 64) : floatRoot n = 2 ^ 32 := by
  have hround : roundShift n 11 * 2 ^ 11 = 2 ^ 64 := by
    have := roundShift_near n 11
    omega
  obtain ⟨d, -, -, htest⟩ := exists_rootTest (by omega) h64 (real_f64_of_64_bits (by omega) h64)
  have hfloor : Nat.sqrt n < 2 ^ 32 := Nat.sqrt_lt.2 h64
  refine le_antisymm ((floatRoot_le_sqrt_succ h64).trans hfloor) ((htest _ (by decide)).2 ?_)
  rw [hround]
  omega

/-- Below the tie the conversion is at most 2^64 - 2^11, and the root of that is half a unit below 2^32. -/
theorem floatRoot_lt_of_lt_tie {n : Nat} (hlo : 2 ^ 63 ≤ n) (h : n < 2 ^ 64 - 1024) : floatRoot n < 2 ^ 32 := by
  have hround : roundShift n 11 * 2 ^ 11 ≤ 2 ^ 64 - 2 ^ 11 := by
    have := roundShift_near n 11
    omega
  have h64 : n < 2 ^ 64 := by omega
  obtain ⟨d, hscale, -, htest⟩ := exists_rootTest (by omega) h64 (real_f64_of_64_bits hlo h64)
  have hd : 2 ^ 21 ≤ 2 ^ d := two_pow_le_of_scale hscale hround (by decide)
  have hvalue := Nat.mul_le_mul_right (2 ^ d) hround
  rw [htest.floatRoot_lt_iff (by decide)]
  omega

theorem floatRoot_of_top_square_le {n : Nat} (hlo : (2 ^ 32 - 1) * (2 ^ 32 - 1) ≤ n) (h : n < 2 ^ 64 - 1024) :
    floatRoot n = 2 ^ 32 - 1 := by
  have hfloor : 2 ^ 32 - 1 ≤ Nat.sqrt n := Nat.le_sqrt.2 hlo
  have hle := sqrt_le_floatRoot (n := n) (by omega)
  have hlt := floatRoot_lt_of_lt_tie (n := n) (by omega) h
  omega

/-! ### The commands -/

/-- The root of a 64-bit number is at most 2^32, and that of a number of at most 32 bits is exact (R201). -/
theorem floatRoot_low_le (w : Width) (x : Word) :
    floatRoot (low w x) ≤ if w = .w64 then 2 ^ 32 else 2 ^ (w.bits / 2) - 1 := by
  have hlow := low_lt w x
  split
  case isTrue hw =>
    subst hw
    have hfloor : Nat.sqrt (low .w64 x) < 2 ^ 32 := Nat.sqrt_lt.2 hlow
    exact (floatRoot_le_sqrt_succ hlow).trans hfloor
  case isFalse hw =>
    have hnarrow : 2 ^ w.bits = 2 ^ (w.bits / 2) * 2 ^ (w.bits / 2) ∧ 2 ^ w.bits ≤ 2 ^ 32 := by
      cases w
      case w64 => exact absurd rfl hw
      all_goals decide
    obtain ⟨hhalf, hmax⟩ := hnarrow
    rw [floatRoot_eq_sqrt (by omega)]
    exact Nat.le_pred_of_lt (Nat.sqrt_lt.2 (hhalf ▸ hlow))

/-- What `sqrt.uW` leaves: the path's value, which fits W bits. -/
theorem exec_sqrt (w : Width) (s : State) :
    exec (.sqrt w) s = .next (doneWith s (BitVec.ofNat 64 (floatRoot (low w s.unit.curA))) false false) := by
  have hbound : (if w = .w64 then 2 ^ 32 else 2 ^ (w.bits / 2) - 1) < 2 ^ w.bits := by cases w <;> decide
  rw [← finish_of_fits s ((floatRoot_low_le w _).trans_lt hbound), ← toNat_lowBits]
  rfl

/-- Settles O23: the path's value fits its width. -/
theorem sqrtFollowsFloatPath : Obligations.SqrtFollowsFloatPath :=
  ⟨fun w => by cases w <;> decide, fun w s => ⟨floatRoot_low_le w _, exec_sqrt w s⟩⟩

/-- Settles O27: below the bound the path is exact; at it, the path is evaluated. -/
theorem sqrtExactBelowBound : Obligations.SqrtExactBelowBound := by
  refine ⟨fun w s h => by rw [exec_sqrt, floatRoot_eq_sqrt h], fun s h => ?_⟩
  have hvalue : floatRoot (low .w64 0x10000008000000) = 67108865 := by decide +kernel
  rw [exec_sqrt, h, hvalue]
  rfl

/-- Settles O28: the errors of the conversion and of the root add up to less than the distance to the integer below the
floor, or to the second one above it. -/
theorem sqrtWithinOneOfFloor : Obligations.SqrtWithinOneOfFloor := by
  intro w s
  have hlo := sqrt_le_floatRoot (low_lt_two_pow_64 w s.unit.curA)
  have hhi := floatRoot_le_sqrt_succ (low_lt_two_pow_64 w s.unit.curA)
  exact ⟨_, exec_sqrt w s, by omega⟩

theorem low_w64 (x : Word) : low .w64 x = x.toNat := Nat.mod_eq_of_lt x.isLt

/-- Settles O29: the conversion gives 2^64 from the tie on and at most 2^64 - 2^11 below it; the two operands just below
the range are evaluated. -/
theorem sqrtAtTopOfRange : Obligations.SqrtAtTopOfRange := by
  refine fun s => ⟨fun hlo => ?_, fun hlo hhi => ?_, fun h => ?_⟩
  · rw [exec_sqrt, low_w64, floatRoot_of_ge_tie hlo s.unit.curA.isLt]
    rfl
  · rw [exec_sqrt, low_w64, floatRoot_of_top_square_le hlo (Nat.lt_succ_of_le hhi)]
    rfl
  · have hvalues : floatRoot s.unit.curA.toNat = 0xFFFFFFFF ∧ Nat.sqrt s.unit.curA.toNat = 0xFFFFFFFE := by
      rcases h with h | h <;> rw [h] <;> decide +kernel
    rw [exec_sqrt, low_w64, hvalues.1]
    exact ⟨rfl, hvalues.2⟩

/-- Settles O30: the path is exact on squares. -/
theorem sqrtRoundTrip : Obligations.SqrtRoundTrip := fun w s m _ h => by
  have h64 : m * m < 2 ^ 64 := h ▸ low_lt_two_pow_64 w s.unit.curA
  rw [exec_sqrt, h, floatRoot_mul_self h64]

/-- What `sqrtx.uW` leaves in a unit that has it: the exact floor of the root, which fits W bits (R205). -/
theorem exec_sqrtx_of_present {s : State} (w : Width) (h : s.params.hasSqrtx = true) :
    exec (.sqrtx w) s = .next (doneWith s (BitVec.ofNat 64 (Nat.sqrt (low w s.unit.curA))) false false) := by
  rw [← finish_of_fits s ((Nat.sqrt_le_self _).trans_lt (low_lt w _)), ← floorRoot_eq_sqrt, ← toNat_lowBits]
  exact if_pos h

/-- Settles O31: the root found bit by bit is the library's, and a unit without the command reports it as illegal. -/
theorem sqrtxIsExactFloor : Obligations.SqrtxIsExactFloor :=
  ⟨fun w => by cases w <;> decide, fun w _ =>
    ⟨fun h => ⟨_, Nat.sqrt_le _, fun _ => Nat.le_sqrt.2, exec_sqrtx_of_present w h⟩,
      fun h => if_neg (by rw [h]; decide)⟩⟩

end Sys2Proof.Machine

/-! ## Proofs of the exception statements: a host in a fault, and a host that never comes into one (60_exceptions.md) -/

namespace Sys2Proof.Machine

open Sys2Proof.Spec

/-! ### A host in a fault (R222) -/

theorem hostMove_of_fault {s : State} {f : Fault} (hfault : s.host.fault = some f) (m : Move) :
    hostMove s m = .fault f := by
  simp [hostMove, hfault]

theorem hostMove_of_no_fault {s : State} (hfault : s.host.fault = none) (m : Move) : hostMove s m = m := by
  simp [hostMove, hfault]

/-- The turns that are the host's moves answer its fault (log entry 9). -/
theorem runEvent_of_fault {s : State} {f : Fault} {e : Event} (hfault : s.host.fault = some f)
    (he : e = .port ∨ e = .host ∨ ∃ a, e = .issue a) : runEvent e s = .fault f := by
  obtain rfl | rfl | ⟨a, rfl⟩ := he <;> exact hostMove_of_fault hfault _

/-- The fixed order gives a host in a fault beside an idle unit its turn, or the port's (log entry 5). -/
theorem defaultEvent_of_fault {s : State} {f : Fault} (hfault : s.host.fault = some f)
    (hidle : s.unit.status.busy = false) : defaultEvent s = some .port ∨ defaultEvent s = some .host := by
  by_cases hport : s.host.port = []
  · exact .inr (by simp [defaultEvent, hidle, hport, hfault])
  · exact .inl (by simp [defaultEvent, hidle, hport])

theorem NextTurn.fault_eq {s s' : State} {e : Event} (h : NextTurn s e s') : s'.host.fault = s.host.fault := by
  obtain ⟨turns, rfl⟩ := h.eq_withScript
  rfl

/-- Settles O50: the turn that is next, laid down or of the fixed order, is one of the host's moves. -/
theorem faultedHostStops : Obligations.FaultedHostStops := by
  intro s f hfault
  have stops {e : Event} {s' : State} (hturn : NextTurn s e s') (he : e = .port ∨ e = .host ∨ ∃ a, e = .issue a) :
      step s = .fault f :=
    (step_of_nextTurn hturn).trans (runEvent_of_fault (hturn.fault_eq.trans hfault) he)
  refine ⟨fun e rest hscript he => stops (.inr ⟨rest, hscript, rfl⟩) he, fun hscript hidle => ?_⟩
  rcases defaultEvent_of_fault hfault hidle with he | he
  · exact stops (.inl ⟨hscript, he, rfl⟩) (.inl rfl)
  · exact stops (.inl ⟨hscript, he, rfl⟩) (.inr (.inl rfl))

/-- A reset leaves a host in a fault in that fault, whatever accesses it drops (R252). -/
theorem resetUnit_fault_of_fault {s : State} {f : Fault} (hfault : s.host.fault = some f) :
    s.resetUnit.host.fault = some f := by
  unfold State.resetUnit
  split <;> simp [hfault]

/-- A turn to a next state leaves a host in a fault in that fault: it is the unit's or a reset. -/
theorem runEvent_keeps_fault {e : Event} {s t : State} {f : Fault} (hfault : s.host.fault = some f)
    (h : runEvent e s = .next t) : t.host.fault = some f := by
  cases e with
  | unit =>
    rcases unitTurn_cases s with ⟨-, v, ovf, ill, ht⟩ | ⟨-, ht⟩ <;> cases h.symm.trans ht <;> exact hfault
  | port | host | issue => exact absurd (hostMove_next h).1 (by simp [hfault])
  | reset =>
    cases h
    exact resetUnit_fault_of_fault hfault

/-- Settles O51: a step is a turn, which keeps the fault, or nothing moves. -/
theorem hostFaultNeverCleared : Obligations.HostFaultNeverCleared := by
  intro s t f hfault h
  rcases step_next h with rfl | ⟨e, s', hturn, hrun⟩
  · exact hfault
  · exact runEvent_keeps_fault (hturn.fault_eq.trans hfault) hrun

/-! ### The names that a host has: bound, or about to be bound by a read at the port (R94) -/

/-- A bound name stays bound where the names stay, or one is bound. -/
theorem bound_mono {l l' : List (Name × Word)} (h : l' = l ∨ ∃ n v, l' = bindName l n v) {m : Name}
    (hm : ∃ x, lookupName l m = some x) : ∃ x, lookupName l' m = some x := by
  obtain rfl | ⟨n, v, rfl⟩ := h
  · exact hm
  · exact bindName_keeps n v hm

/-- While no named read stands at the port, the names a host has are bound. -/
theorem bound_of_hasName {h : HostState} (hwait : h.awaitsRead = false) {n : Name} (hn : h.hasName n) :
    ∃ v, lookupName h.names n = some v := by
  obtain hbound | ⟨a, ha, hkind⟩ := hn
  · exact hbound
  · have hawaits : h.awaitsRead = true := (awaitsRead_iff h).2 ⟨a, ha, n, hkind⟩
    exact absurd hawaits (by simp [hwait])

/-- The host's own turn takes no name away. -/
theorem HostOnly.hasName {s t : State} (h : HostOnly s t) {n : Name} (hn : s.host.hasName n) : t.host.hasName n := by
  obtain ⟨-, -, -, -, -, -, ⟨more, hport⟩, hnames⟩ := h
  obtain hbound | ⟨a, ha, hkind⟩ := hn
  · exact .inl (bound_mono hnames hbound)
  · exact .inr ⟨a, hport ▸ List.mem_append_left more ha, hkind⟩

@[simp] theorem perform_pc (s : State) (a : BusAccess) : (s.perform a).host.pc = s.host.pc := by
  unfold State.perform; split <;> rfl

/-- A performed read binds its name. -/
theorem perform_binds {s : State} {a : BusAccess} {n : Name} (hkind : a.kind = .read (some n)) :
    ∃ v, lookupName (s.perform a).host.names n = some v :=
  ⟨s.unit.readReg a.off, by simp [State.perform, hkind, lookupName_bindName]⟩

/-- An access that leaves the port takes no name away: a name that it was to bind is bound. -/
theorem hasName_dequeue_perform {s : State} {a : BusAccess} {rest : List BusAccess} (hport : s.host.port = a :: rest)
    {n : Name} (hn : s.host.hasName n) : (s.dequeue.perform a).host.hasName n := by
  obtain hbound | ⟨b, hb, hkind⟩ := hn
  · exact .inl (bound_mono (perform_names s.dequeue a) hbound)
  · rw [hport, List.mem_cons] at hb
    obtain rfl | hb := hb
    · exact .inl (perform_binds hkind)
    · exact .inr ⟨b, by simpa [hport] using hb, hkind⟩

/-! ### The lines of a sound program (R94) -/

/-- From `s` the host ran `line` of its program and stands in `t`: it took a path that the line has, the name that the
line binds is bound or will be, and all that came to the port is admitted. -/
structure RanLine (s : State) (line : HostLine) (t : State) : Prop where
  path : line.leadsTo s.host.program s.host.pc t.host.pc
  binds : ∀ n, line.binds = some n → t.host.hasName n
  port : ∀ a ∈ t.host.port, a ∈ s.host.port ∨ a.admitted = true

/-- A line that the next one follows, and that neither binds a name nor makes an access. -/
theorem RanLine.nextLine {s : State} {line : HostLine} (hjmp : ∀ l, line ≠ .jmp l) (hbinds : line.binds = none) :
    RanLine s line s.nextLine :=
  ⟨.inl ⟨rfl, hjmp⟩, by simp [hbinds], fun _ => .inl⟩

/-- A line that makes an access to a register; the name it binds, if it binds one, is the access's. -/
theorem RanLine.enqueue {s : State} {line : HostLine} {r : HostReg} {kind : AccessKind} (hjmp : ∀ l, line ≠ .jmp l)
    (hbinds : ∀ n, line.binds = some n → kind = .read (some n)) :
    RanLine s line (s.enqueue { kind := kind, off := r.offset, size := 8 }).nextLine where
  path := .inl ⟨rfl, hjmp⟩
  binds n hn := .inr ⟨_, List.mem_append_right _ List.mem_cons_self, hbinds n hn⟩
  port a ha := (List.mem_append.1 ha).imp_right fun h => by
    rw [List.mem_singleton.1 h]
    exact hostReg_admitted r kind

/-- A line that binds a name itself. -/
theorem RanLine.bind {s : State} {line : HostLine} {dst : Name} (v : Word) (hjmp : ∀ l, line ≠ .jmp l)
    (hbinds : line.binds = some dst) : RanLine s line (s.bind dst v).nextLine where
  path := .inl ⟨rfl, hjmp⟩
  binds n hn := .inl ⟨v, by cases hbinds.symm.trans hn; exact lookupName_bindName _ _ _⟩
  port _ := .inl

theorem gotoLabel_found {s : State} {l : Name} {j : Nat} (h : findLabel s.host.program l = some j) :
    s.gotoLabel l = .next { s with host := { s.host with pc := j } } := by
  simp [State.gotoLabel, h]

/-- A branch that is taken, to a label that is there. -/
theorem gotoLabel_ranLine {s : State} {line : HostLine} {l : Name} (htarget : line.target = some l)
    (hbinds : line.binds = none) (hfound : ∃ j, findLabel s.host.program l = some j) :
    ∃ t, s.gotoLabel l = .next t ∧ RanLine s line t := by
  obtain ⟨j, hj⟩ := hfound
  exact ⟨_, gotoLabel_found hj, .inr ⟨l, htarget, hj⟩, by simp [hbinds], fun _ => .inl⟩

/-- A line whose label is there and whose names are bound is run. -/
theorem runLine_ranLine {s : State} {line : HostLine}
    (hlabel : ∀ l, line.target = some l → ∃ j, findLabel s.host.program l = some j)
    (hbound : ∀ n ∈ line.reads, ∃ v, lookupName s.host.names n = some v) :
    ∃ t, s.runLine line = .next t ∧ RanLine s line t := by
  cases line with
  | wr r v =>
    cases v with
    | imm x => exact ⟨_, rfl, .enqueue nofun nofun⟩
    | name n =>
      obtain ⟨x, hx⟩ := hbound n List.mem_cons_self
      exact ⟨_, withName_bound hx _, .enqueue nofun nofun⟩
  | rd r dst => exact ⟨_, rfl, .enqueue nofun fun n hn => by cases hn; rfl⟩
  | label l => exact ⟨_, rfl, .nextLine nofun rfl⟩
  | beqz n l =>
    obtain ⟨x, hx⟩ := hbound n List.mem_cons_self
    simp only [State.runLine, withName_bound hx]
    split
    · exact gotoLabel_ranLine rfl rfl (hlabel l rfl)
    · exact ⟨_, rfl, .nextLine nofun rfl⟩
  | bnez n l =>
    obtain ⟨x, hx⟩ := hbound n List.mem_cons_self
    simp only [State.runLine, withName_bound hx]
    split
    · exact ⟨_, rfl, .nextLine nofun rfl⟩
    · exact gotoLabel_ranLine rfl rfl (hlabel l rfl)
  | jmp l => exact gotoLabel_ranLine rfl rfl (hlabel l rfl)
  | andi dst src imm | addi dst src imm =>
    obtain ⟨x, hx⟩ := hbound src List.mem_cons_self
    exact ⟨_, withName_bound hx _, .bind _ nofun rfl⟩
  | set dst imm => exact ⟨_, rfl, .bind imm nofun rfl⟩

/-! ### A sound host stays one, turn by turn (R220) -/

/-- A sound host that goes on to no other line stays sound, where it has the names it had and its accesses and turns are
sound. -/
theorem State.SoundHost.stays {s t : State} (h : s.SoundHost) (hfault : t.host.fault = s.host.fault)
    (hprogram : t.host.program = s.host.program) (hpc : t.host.pc = s.host.pc)
    (hnames : ∀ n, s.host.hasName n → t.host.hasName n) (hport : ∀ a ∈ t.host.port, a.admitted = true)
    (hscript : ∀ e ∈ t.host.script, e ∈ s.host.script) : t.SoundHost where
  noFault := hfault.trans h.noFault
  programSound := by
    obtain ⟨bound, hsound, hbound⟩ := h.programSound
    exact ⟨bound, hprogram ▸ hsound, fun n hn => hnames n (hbound n (hpc ▸ hn))⟩
  portAdmitted := hport
  scriptSound e he := h.scriptSound e (hscript e he)

/-- A sound host stays sound along every line of its program: the names to be bound at the line it comes to were to be
bound before, or are the line's. -/
theorem State.SoundHost.goesOn {s t : State} {line : HostLine} (h : s.SoundHost)
    (hline : s.host.program[s.host.pc]? = some line) (honly : HostOnly s t) (hran : RanLine s line t) :
    t.SoundHost := by
  have hnames : ∀ n, s.host.hasName n → t.host.hasName n := fun _ => honly.hasName
  obtain ⟨-, -, hscript, hfault, -, hprogram, -, -⟩ := honly
  obtain ⟨bound, hsound, hbound⟩ := h.programSound
  refine ⟨hfault.trans h.noFault, ⟨bound, hprogram ▸ hsound, fun n hn => ?_⟩, fun a ha => ?_,
    hscript ▸ h.scriptSound⟩
  · rcases hsound.boundOnEveryPath _ _ hline _ hran.path n hn with hbefore | hbinds
    · exact hnames n (hbound n hbefore)
    · exact hran.binds n hbinds
  · exact (hran.port a ha).elim (h.portAdmitted a) id

/-- The host's turn: a sound host waits, runs a line, or has none left. -/
theorem hostTurn_sound {s : State} (h : s.SoundHost) : ∃ t, hostTurn s = .next t ∧ t.SoundHost := by
  cases hwait : s.host.awaitsRead with
  | true => exact ⟨s, hostTurn_quiet (.inl hwait), h⟩
  | false =>
    cases hline : s.host.program[s.host.pc]? with
    | none => exact ⟨s, hostTurn_quiet (.inr (List.getElem?_eq_none_iff.1 hline)), h⟩
    | some line =>
      obtain ⟨bound, hsound, hbound⟩ := h.programSound
      obtain ⟨t, hrun, hran⟩ := runLine_ranLine (hsound.labelsFound line (List.mem_of_getElem? hline))
        fun n hn => bound_of_hasName hwait (hbound n (hsound.readsBound _ line hline n hn))
      exact ⟨t, (hostTurn_line hwait hline).trans hrun, h.goesOn hline (runLine_next hrun) hran⟩

/-- The port's turn: a sound host's access is held or performed, and never refused. -/
theorem portTurn_sound {s : State} (h : s.SoundHost) : ∃ t, portTurn s = .next t ∧ t.SoundHost := by
  rcases portTurn_cases s with ⟨-, ht⟩ | ⟨a, rest, hport, hrefused, -⟩ | ⟨a, rest, -, -, -, ht⟩ |
    ⟨a, rest, hport, -, -, ht⟩
  · exact ⟨s, ht, h⟩
  · have hadmitted : a.admitted = true := h.portAdmitted a (hport ▸ List.mem_cons_self)
    exact absurd hadmitted (by simp [hrefused])
  · exact ⟨s, ht, h⟩
  · refine ⟨_, ht, h.stays (by simp) (by simp) (by simp) (fun n => hasName_dequeue_perform hport) ?_ (by simp)⟩
    intro b hb
    exact h.portAdmitted b (List.mem_of_mem_tail (by simpa using hb))

/-- The unit's turn does not touch the host. -/
theorem unitTurn_sound {s : State} (h : s.SoundHost) : ∃ t, unitTurn s = .next t ∧ t.SoundHost := by
  rcases unitTurn_cases s with ⟨-, v, ovf, ill, ht⟩ | ⟨-, ht⟩
  · exact ⟨_, ht, h.noFault, h.programSound, h.portAdmitted, h.scriptSound⟩
  · exact ⟨s, ht, h⟩

/-- An admitted access that reaches the port. -/
theorem State.SoundHost.enqueue {s : State} (h : s.SoundHost) {a : BusAccess} (ha : a.admitted = true) :
    (s.enqueue a).SoundHost := by
  refine h.stays rfl rfl rfl (fun n hn => ?_) (fun b hb => ?_) fun _ => id
  · exact hn.imp_right fun ⟨b, hb, hkind⟩ => ⟨b, List.mem_append_left [a] hb, hkind⟩
  · exact (List.mem_append.1 hb).elim (h.portAdmitted b) fun hb => List.mem_singleton.1 hb ▸ ha

/-- Every sound turn answers a next state, with a sound host. -/
theorem runEvent_sound {s : State} {e : Event} (h : s.SoundHost) (he : e.sound = true) :
    ∃ t, runEvent e s = .next t ∧ t.SoundHost := by
  cases e with
  | unit => exact unitTurn_sound h
  | port =>
    obtain ⟨t, ht, hsound⟩ := portTurn_sound h
    exact ⟨t, (hostMove_of_no_fault h.noFault _).trans ht, hsound⟩
  | host =>
    obtain ⟨t, ht, hsound⟩ := hostTurn_sound h
    exact ⟨t, (hostMove_of_no_fault h.noFault _).trans ht, hsound⟩
  | issue a => exact ⟨_, hostMove_of_no_fault h.noFault _, h.enqueue he⟩
  | reset => exact absurd he (by simp [Event.sound])

/-- The state a laid-down turn runs in has a sound host too. -/
theorem State.SoundHost.dropTurn {s : State} (h : s.SoundHost) : s.dropTurn.SoundHost :=
  h.stays rfl rfl rfl (fun _ => id) h.portAdmitted fun _ => List.mem_of_mem_tail

/-- The fixed order has no reset in it. -/
theorem defaultEvent_sound {s : State} {e : Event} (h : defaultEvent s = some e) : e.sound = true := by
  unfold defaultEvent at h
  split_ifs at h <;> cases h <;> rfl

/-- Settles O55: the turn that is next is a sound one, and a sound turn of a sound host answers a next state with a sound
host. -/
theorem soundHostNeverStops : Obligations.SoundHostNeverStops := by
  intro s h
  rcases step_cases s with ⟨e, rest, hscript, hstep⟩ | ⟨-, e, he, hstep⟩ | ⟨-, -, hstep⟩ <;> rw [hstep]
  · exact runEvent_sound h.dropTurn (h.scriptSound e (hscript ▸ List.mem_cons_self))
  · exact runEvent_sound h (defaultEvent_sound he)
  · exact ⟨s, rfl, h⟩

end Sys2Proof.Machine

/-! ## Proofs of the reset and hazard statements: a reset turn, and a command in flight that completes
(70_reset_and_hazards.md) -/

namespace Sys2Proof.Machine

open Sys2Proof.Spec

/-! ### Reset (R250 to R252) -/

/-- The host side after a reset: the port is empty, and a host in no fault has the bus error response of the oldest access
dropped (R252; log entry 8). -/
theorem resetUnit_host (s : State) :
    s.resetUnit.host = { s.host with
      port := []
      fault := s.host.fault.or (s.host.port.head?.map fun a => .droppedByReset a.off) } := by
  unfold State.resetUnit
  cases hport : s.host.port with
  | nil => simp
  | cons a rest => rfl

/-- A laid-down reset turn resets the unit, whatever fault the host is in. -/
theorem step_reset {s : State} {rest : List Event} (hscript : s.host.script = .reset :: rest) :
    step s = .next ({ s with host := { s.host with script := rest } } : State).resetUnit :=
  step_of_nextTurn (.inr ⟨rest, hscript, rfl⟩)

/-- Settles O41: the unit, the parameters and the host side of a reset, each by its own lemma. -/
theorem resetAbandonsAndDrops : Obligations.ResetAbandonsAndDrops := by
  intro s rest hscript
  refine ⟨_, step_reset hscript, ?_⟩
  rw [resetUnit_unit, resetUnit_params, resetUnit_host]
  refine ⟨rfl, rfl, rfl, rfl, rfl, rfl, rfl, rfl, ?_⟩
  cases s.host.fault with
  | some f => rfl
  | none => cases s.host.port <;> rfl

/-! ### A command in flight completes (R264) -/

/-- A turn changes nothing in the turns left. -/
theorem runEvent_script {e : Event} {s t : State} (h : runEvent e s = .next t) : t.host.script = s.host.script := by
  cases e with
  | unit => rcases unitTurn_cases s with ⟨-, v, ovf, ill, ht⟩ | ⟨-, ht⟩ <;> cases h.symm.trans ht <;> rfl
  | port =>
    rcases portTurn_cases s with ⟨-, ht⟩ | ⟨a, rest, -, -, ht⟩ | ⟨a, rest, -, -, -, ht⟩ | ⟨a, rest, -, -, -, ht⟩ <;>
      cases (hostMove_next h).2.symm.trans ht
    · rfl
    · rfl
    · rfl
    · exact perform_script s.dequeue a
  | host =>
    obtain ⟨-, -, hscript, -⟩ := hostTurn_next (hostMove_next h).2
    exact hscript
  | issue a =>
    cases (hostMove_next h).2
    rfl
  | reset =>
    cases h
    exact resetUnit_script s

/-- A step with a turn laid down uses that turn up. -/
theorem step_script {s t : State} {e : Event} {rest : List Event} (hscript : s.host.script = e :: rest)
    (h : step s = .next t) : t.host.script = rest :=
  runEvent_script ((step_of_nextTurn (.inr ⟨rest, hscript, rfl⟩)).symm.trans h)

/-- The step at the unit's turn leaves BUSY = 0 and DONE = 1 (R33). -/
theorem step_completes {s s' t : State} (hturn : unitsTurn s s') (h : step s = .next t) :
    t.unit.status.busy = false ∧ t.unit.status.done = true := by
  obtain ⟨v, ovf, ill, hstep⟩ := everyCommandCompletes s s' hturn
  cases h.symm.trans hstep
  exact ⟨rfl, rfl⟩

/-- While the host is sound, a step of a BUSY unit is the completion or leaves it BUSY: the one other turn that clears BUSY
is a reset, and none is laid down. -/
theorem step_completes_or_stays_busy {s t : State} (hsound : s.SoundHost) (hbusy : s.unit.status.busy = true)
    (h : step s = .next t) :
    (t.unit.status.busy = false ∧ t.unit.status.done = true) ∨ t.unit.status.busy = true := by
  rcases commandInFlightUndisturbed s t hbusy h with ⟨s', hturn⟩ | ⟨rest, hreset⟩ | hunit
  · exact .inl (step_completes hturn h)
  · have hbad : Event.reset.sound = true := hsound.scriptSound .reset (hreset ▸ List.mem_cons_self)
    exact absurd hbad (by decide)
  · exact .inr (by rw [hunit]; exact hbusy)

/-- Settles O54, by induction on the turns laid down: a step is the completion, or leaves a BUSY unit, a sound host and one
turn fewer; with no turn left the unit's turn is next (log entry 5). -/
theorem busyUnitCompletes : Obligations.BusyUnitCompletes := by
  intro s hsound hbusy
  induction hturns : s.host.script generalizing s with
  | nil =>
    obtain ⟨t, hstep, -⟩ := soundHostNeverStops s hsound
    exact ⟨1, t, Nat.le_refl 1, run_succ_of_step hstep 0, step_completes ⟨hbusy, .inl ⟨hturns, rfl⟩⟩ hstep⟩
  | cons e rest ih =>
    obtain ⟨t, hstep, htsound⟩ := soundHostNeverStops s hsound
    rcases step_completes_or_stays_busy hsound hbusy hstep with hdone | htbusy
    · exact ⟨1, t, Nat.le_add_left 1 _, run_succ_of_step hstep 0, hdone⟩
    · obtain ⟨k, u, hk, hrun, hdone⟩ := ih t htsound htbusy (step_script hturns hstep)
      exact ⟨k + 1, u, Nat.succ_le_succ hk, (run_succ_of_step hstep k).trans hrun, hdone⟩

end Sys2Proof.Machine
